-- ==== Sys2Proof/Word.lean ====
section
/-! DEFINITION. The words of the SPN cipher core (00_scope.md R5, R6; 30_encoding.md R50, R51). -/

namespace Sys2Proof

/-- A block, key or subkey word: `W_BLOCK` = `W_KEY` = 32 bits, bit 0 the least significant (R5, R6). -/
abbrev Word := BitVec 32

/-- A nibble: `W_NIB` = 4 bits (R5, R75). -/
abbrev Nibble := BitVec 4

/-- One byte of a block (20_memory.md R34). -/
abbrev Byte := BitVec 8

/-- A command word of the one format CW40 (R50). -/
abbrev CmdWord := BitVec 40

/-- A response word of the one format RSP35 (R51). -/
abbrev RspWord := BitVec 35

end Sys2Proof
end

