-- ==== Sys2Proof/Config.lean ====
section
/-! DEFINITION. What is fixed for one core and never changes while it runs (00_scope.md R5, 10_state.md R11): the fixed
parameters, the two open tables, and the free values the spec leaves open. Nothing here is state. -/

namespace Sys2Proof

/-- A constant table of `n` entries, each one of `0 .. n-1` (R70, R72): an entry is itself an index of the table. -/
abbrev Table (n : Nat) := Vector (Fin n) n

/-- The two tables of a core: `SBOX_TABLE` (16 entries of 4 bits, R70) and `PERM_TABLE` (32 entries of 5 bits; the index is
the source bit, the entry the destination bit, R72). -/
structure Tables where
  sbox : Table 16
  perm : Table 32
deriving DecidableEq, Repr

/-- Both tables are bijections: no entry occurs twice, so that each of the `n` values occurs exactly once (R70, R72). -/
def Tables.wf (t : Tables) : Bool :=
  decide t.sbox.toList.Nodup && decide t.perm.toList.Nodup

/-- One table from raw numbers: refused unless there are exactly `n` entries, each below `n`, none repeated (R87). -/
def Table.build (n : Nat) (entries : List Nat) : Option (Table n) :=
  if h : 0 < n ∧ entries.length = n ∧ entries.all (· < n) ∧ entries.Nodup then
    some (Vector.ofFn fun i => ⟨entries.getD i 0 % n, Nat.mod_lt _ h.1⟩)
  else none

/-- A configuration is built from raw tables or refused (R87: a model must reject a table that is not a bijection when the
configuration is built rather than run with it). -/
def Tables.build (sbox perm : List Nat) : Option Tables :=
  match Table.build 16 sbox, Table.build 32 perm with
  | some s, some p => some ⟨s, p⟩
  | _, _ => none

/-- `T_ID`, an EXAMPLE of 95_test_vectors.md section 1.1: both tables the identity. Not the hardware's tables. -/
def Tables.tId : Tables where
  sbox := #v[0, 1, 2, 3, 4, 5, 6, 7, 8, 9, 10, 11, 12, 13, 14, 15]
  perm := #v[0, 1, 2, 3, 4, 5, 6, 7, 8, 9, 10, 11, 12, 13, 14, 15, 16, 17, 18, 19, 20, 21, 22, 23, 24, 25, 26, 27, 28, 29, 30, 31]

/-- `T_AFF`, an EXAMPLE of 95_test_vectors.md section 1.2, the table rows of that section. Not the hardware's tables. -/
def Tables.tAff : Tables where
  sbox := #v[5, 12, 3, 10, 1, 8, 15, 6, 13, 4, 11, 2, 9, 0, 7, 14]
  perm := #v[3, 8, 13, 18, 23, 28, 1, 6, 11, 16, 21, 26, 31, 4, 9, 14, 19, 24, 29, 2, 7, 12, 17, 22, 27, 0, 5, 10, 15, 20, 25, 30]

/-- `N_ROUNDS` (R5): the number of rounds and of subkeys. -/
def nRounds : Nat := 3

/-- `KS_CONST` (R5): the key-schedule constant. -/
def ksConst : Word := 0xA5A5A5A5

namespace Config

/-- The open contents of `SBOX_TABLE`: some permutation of {0..15}, nothing else known of it (R5, R70; log entry 1). -/
opaque sboxOrder : Equiv.Perm (Fin 16)

/-- The open contents of `PERM_TABLE`: some permutation of {0..31}, nothing else known of it (R5, R72; log entry 1). -/
opaque permOrder : Equiv.Perm (Fin 32)

/-- The tables of the core: the open parameters, as tables. -/
def tables : Tables where
  sbox := Vector.ofFn fun x => sboxOrder x
  perm := Vector.ofFn fun s => permOrder s

/-- How many clock edges more than one lie between the acceptance of a command and its commit: `LAT = 1 + extraEdges`
(20_memory.md R32, 70_reset_and_hazards.md R177). A free value: it may differ from command to command and from run to run
(`tick`), and nothing says that it does not depend on the key (log entry 3). -/
opaque extraEdges (tick : Nat) (cw : CmdWord) (sk0 sk1 sk2 : Word) : Nat

/-- How many round steps the engine takes at a clock edge before the commit edge (43_block_cipher.md R119: how many edges
lie between two steps is not specified). A free value, not observable (log entry 4). -/
opaque roundsAtEdge (tick : Nat) : Nat

/-- What `rsp_word` carries in a cycle without a response (20_memory.md R30; 93_implementation_defined.md U14: any value).
A free value (log entry 8). -/
opaque idleRspWord (tick : Nat) : RspWord

end Config

end Sys2Proof
end

