-- ==== Sys2Proof/Machine/State.lean ====
section
/-! DEFINITION. The state of one core as plain data (10_state.md R10 to R26), what its port holds between edges
(20_memory.md R31, R32), what the host will do next, the state after reset (R24), and the reasons a step can stop. -/

namespace Sys2Proof.Machine

/-- The three faults the core raises (60_exceptions.md R140). A fault of the core is a NEXT state: it is recorded in `flt`,
and the machine goes on, locked. -/
inductive FaultCode where
  /-- 1: an illegal command word (R141). -/
  | illegal
  /-- 2: `ENC`, `DEC` or `RDSK` with no key loaded (R142). -/
  | nokey
  /-- 3: a ciphertext block of fewer than 4 bytes (R143). -/
  | shortblk
deriving DecidableEq, Repr

/-- `ST` of a response (30_encoding.md R63). -/
inductive Status where
  /-- 0: the command committed normally. -/
  | ok
  /-- 1, 2, 3: the command raised this fault. -/
  | fault (code : FaultCode)
  /-- 4: the core was already locked; the command was ignored. -/
  | locked
deriving DecidableEq, Repr

/-- A response (R51): a status and 32 bits of data. -/
structure Response where
  st   : Status
  data : Word
deriving DecidableEq, Repr

/-- What the host does next on the port (20_memory.md R30, R31; 70_reset_and_hazards.md R165; log entry 6). -/
inductive HostEvent where
  /-- Present `cw` and hold it until it is accepted, then wait for its response: one whole transaction. -/
  | command (cw : CmdWord)
  /-- One rising edge of `clk` with `rst = 0`, `cmd_valid = valid` and `cmd_word = cw`. -/
  | edge (valid : Bool) (cw : CmdWord)
  /-- One rising edge of `clk` with `rst = 1`. -/
  | reset
deriving DecidableEq, Repr

/-- The state of the machine. The first eleven fields are the elements of R10, and the spec gives the core no others. -/
structure State where
  /-- `SK[0]` (R12). -/
  sk0 : Word
  /-- `SK[1]` (R12). -/
  sk1 : Word
  /-- `SK[2]` (R12). -/
  sk2 : Word
  /-- `KV`: `SK` holds a sequence derived by `KEYLD` (R13). -/
  kv : Bool
  /-- `DOUT`: the result register (R14). -/
  dout : Word
  /-- `DV`: `DOUT` holds a result (R14). -/
  dv : Bool
  /-- `FLT`: 0, or the code of the first fault since the last `CLR` or reset (R15). -/
  flt : BitVec 3
  /-- `W`: the working word of the engine (R16). -/
  w : Word
  /-- `RND`: the index of the subkey of the next round step, 0 to 2 (R16, R19; log entry 9). -/
  rnd : Fin 3
  /-- `DIR`: false forward, true reverse (R16). -/
  dir : Bool
  /-- `BUSY`: a command is between its acceptance and its commit (R16). -/
  busy : Bool
  /-- The command word in progress, as sampled at its acceptance; 0 when none is (20_memory.md R31; log entry 7). -/
  accepted : CmdWord
  /-- The model's own: clock edges left to the commit of the command in progress, 0 when none is (R32; log entry 3). -/
  due : Nat
  /-- The response shown in this clock cycle, if any (`rsp_valid`, `rsp_word`; R32; log entry 8). -/
  rsp : Option Response
  /-- The model's own: the counter the free values of Config are applied to (log entry 5). -/
  tick : Nat
  /-- The model's own: what the host does next, the next event first (log entry 6). -/
  host : List HostEvent
deriving DecidableEq, Repr

/-- The machine right after reset: every element of R10 is zero (R24), no response is shown (R165), and, by the model's
choice, no event of the host is waiting and the counters stand at 0 (log entries 3, 5, 6, 7). -/
def State.reset : State where
  sk0 := 0
  sk1 := 0
  sk2 := 0
  kv := false
  dout := 0
  dv := false
  flt := 0
  w := 0
  rnd := 0
  dir := false
  busy := false
  accepted := 0
  due := 0
  rsp := none
  tick := 0
  host := []

/-- Why the machine stops: never. No behaviour of the spec stops the core (70_reset_and_hazards.md R178: every accepted
command commits, `exec` is total; 60_exceptions.md R146: a fault of the core is recorded and the core goes on), so the type
has no constructor and nobody raises one (log entry 14). -/
inductive Fault where
deriving DecidableEq, Repr

/-- Why an instruction has no meaning in the model. -/
inductive Refusal where
  /-- Raised by an arm of exec for an instruction the model gives no meaning; no arm does. Safe: the machine stops where the
  hardware goes on. -/
  | notModelled (mnemonic : String)
deriving DecidableEq, Repr

end Sys2Proof.Machine
end

