-- ==== Sys2Proof/Machine/Flags.lean ====
section
/-! DEFINITION. The flags, codes and output ports: fault and status codes (30_encoding.md R63, 60_exceptions.md R140), the
lock (R147), the status port (10_state.md R21) and the ports of 20_memory.md R30. -/

namespace Sys2Proof.Machine

/-- The code a fault records in `FLT` and shows in `ST` (R140, R63). -/
def faultBits : FaultCode → BitVec 3
  | .illegal => 1
  | .nokey => 2
  | .shortblk => 3

/-- `ST` (R63). -/
def statusBits : Status → BitVec 3
  | .ok => 0
  | .fault code => faultBits code
  | .locked => 4

/-- The response word `RSP35` = `{ST, DATA}` (R51). -/
def rspWord (r : Response) : RspWord := statusBits r.st ++ r.data

/-- The core is locked: `FLT != 0` (R147). -/
def isLocked (s : State) : Bool := decide (s.flt ≠ 0)

/-- `status[5:0]` = `{FLT[2:0], DV, KV, BUSY}` (R21). -/
def statusPort (s : State) : BitVec 6 :=
  s.flt ++ BitVec.ofBool s.dv ++ BitVec.ofBool s.kv ++ BitVec.ofBool s.busy

/-- `cmd_ready = (BUSY = 0) and (rst = 0)` (R30). -/
def cmdReady (rst : Bool) (s : State) : Bool := !s.busy && !rst

/-- `rsp_valid`: a response is shown, and never while `rst = 1` (R32, 70_reset_and_hazards.md R165). -/
def rspValid (rst : Bool) (s : State) : Bool := s.rsp.isSome && !rst

/-- The output ports in one clock cycle (R30). -/
structure PortOutputs where
  cmdReady : Bool
  rspValid : Bool
  rspWord  : RspWord
  dout     : Word
  status   : BitVec 6
deriving DecidableEq, Repr

/-- The output ports as functions of the state and of `rst` (R30, R14, R21, R32). -/
def portOutputs (rst : Bool) (s : State) : PortOutputs where
  cmdReady := Machine.cmdReady rst s
  rspValid := Machine.rspValid rst s
  rspWord := match s.rsp with
    | some r => if rst then Config.idleRspWord s.tick else Machine.rspWord r
    | none => Config.idleRspWord s.tick
  dout := s.dout
  status := statusPort s

end Sys2Proof.Machine
end

