-- ==== Sys2Proof/Syntax.lean ====
section
/-! DEFINITION. The ten commands (30_encoding.md R52), one constructor per row of spec/opcode_table.json. -/

namespace Sys2Proof

/-- A command with its operands as the command word carries them. -/
inductive Instr where
  /-- `NOP`: no operation (44_control.md R135). -/
  | nop
  /-- `KEYLD key`: derive and store the subkeys (41_key_schedule.md R97). -/
  | keyld (key : Word)
  /-- `ENC data, len`: encrypt one block of `len` bytes (43_block_cipher.md R124). -/
  | enc (data : Word) (len : BitVec 3)
  /-- `DEC data, len`: decrypt one block (43_block_cipher.md R125). -/
  | dec (data : Word) (len : BitVec 3)
  /-- `CLR`: end the session, zeroise, clear the fault (44_control.md R136). -/
  | clr
  /-- `RDSK index`: read one subkey (41_key_schedule.md R98). -/
  | rdsk (index : BitVec 2)
  /-- `SUB data`: substitute a word (40_sbox_perm_units.md R83). -/
  | sub (data : Word)
  /-- `ISUB data`: inverse-substitute a word (R84). -/
  | isub (data : Word)
  /-- `PRM data`: permute a word (R85). -/
  | prm (data : Word)
  /-- `IPRM data`: inverse-permute a word (R86). -/
  | iprm (data : Word)
deriving DecidableEq, Repr

end Sys2Proof
end

