-- ==== Sys2Proof/WellFormed.lean ====
section
/-! DEFINITION. Which operands a command may carry (30_encoding.md R54, R55). A command that fails the check stands for a
command word that is illegal (R57). -/

namespace Sys2Proof

/-- `LEN` of `ENC` and `DEC`: 1, 2, 3 or 4 (R54; 20_memory.md R36 (a) to (c)). -/
def WellFormed.lenLegal (len : BitVec 3) : Bool :=
  decide (1 ≤ len.toNat ∧ len.toNat ≤ 4)

/-- The index of `RDSK`: 0, 1 or 2 (R55). -/
def WellFormed.indexLegal (index : BitVec 2) : Bool :=
  decide (index.toNat ≤ 2)

/-- The operands are legal for the command. -/
def Instr.wf : Instr → Bool
  | .nop => true
  | .keyld _ => true
  | .enc _ len => WellFormed.lenLegal len
  | .dec _ len => WellFormed.lenLegal len
  | .clr => true
  | .rdsk index => WellFormed.indexLegal index
  | .sub _ => true
  | .isub _ => true
  | .prm _ => true
  | .iprm _ => true

end Sys2Proof
end

