-- ==== Sys2Proof/Decode.lean ====
section
/-! DEFINITION. The decoder, total on all 2^40 command words, and the encoder (30_encoding.md R50, R52 to R58). -/

namespace Sys2Proof

/-- Why a command word is illegal (R57). The machine raises one and the same ILLEGAL fault for all four. -/
inductive Illegal where
  /-- `Z` = `CW[35]` is 1 (R56). -/
  | reservedBit
  /-- `OP` is `0x6`, `0x7` or `0xC` to `0xF` (R52, R57). -/
  | reservedOpcode
  /-- `LEN` is not legal for the opcode (R54). -/
  | badLen
  /-- `DATA` is not legal for the opcode (R55). -/
  | badData
deriving DecidableEq, Repr

/-- `OP` = `CW[39:36]` (R50). -/
def cwOp (cw : CmdWord) : BitVec 4 := cw.extractLsb' 36 4

/-- `Z` = `CW[35]` (R50). -/
def cwZ (cw : CmdWord) : BitVec 1 := cw.extractLsb' 35 1

/-- `LEN` = `CW[34:32]` (R50). -/
def cwLen (cw : CmdWord) : BitVec 3 := cw.extractLsb' 32 3

/-- `DATA` = `CW[31:0]` (R50). -/
def cwData (cw : CmdWord) : Word := cw.extractLsb' 0 32

/-- A command word from its four fields (R50). -/
def cwPack (op : BitVec 4) (z : BitVec 1) (len : BitVec 3) (data : Word) : CmdWord := op ++ z ++ len ++ data

/-- A command whose `LEN` must be 0 and whose `DATA` is its operand, any value (R54, R55). -/
def decodeWordOperand (make : Word → Instr) (len : BitVec 3) (d : Word) : Except Illegal Instr :=
  if len = 0 then .ok (make d) else .error .badLen

/-- A command with no operand: `LEN` and `DATA` must be 0 (R54, R55). -/
def decodeNoOperand (i : Instr) (len : BitVec 3) (d : Word) : Except Illegal Instr :=
  if len ≠ 0 then .error .badLen else if d = 0 then .ok i else .error .badData

/-- A block command: `LEN` 1 to 4, `DATA` any value (R54, R55). -/
def decodeBlock (make : Word → BitVec 3 → Instr) (len : BitVec 3) (d : Word) : Except Illegal Instr :=
  if WellFormed.lenLegal len then .ok (make d len) else .error .badLen

/-- `RDSK`: `LEN` 0, `DATA[31:2]` 0, `DATA[1:0]` at most 2 (R55, R58). -/
def decodeRdsk (len : BitVec 3) (d : Word) : Except Illegal Instr :=
  if len ≠ 0 then .error .badLen
  else if d.extractLsb' 2 30 = 0 ∧ WellFormed.indexLegal (d.extractLsb' 0 2) = true then .ok (.rdsk (d.extractLsb' 0 2))
  else .error .badData

/-- The `case op of` of R58, for a word whose `Z` is 0. -/
def decodeOp (op : BitVec 4) (len : BitVec 3) (d : Word) : Except Illegal Instr :=
  match op with
  | 0x0 => decodeNoOperand .nop len d
  | 0x1 => decodeWordOperand .keyld len d
  | 0x2 => decodeBlock .enc len d
  | 0x3 => decodeBlock .dec len d
  | 0x4 => decodeNoOperand .clr len d
  | 0x5 => decodeRdsk len d
  | 0x8 => decodeWordOperand .sub len d
  | 0x9 => decodeWordOperand .isub len d
  | 0xA => decodeWordOperand .prm len d
  | 0xB => decodeWordOperand .iprm len d
  | _ => .error .reservedOpcode

/-- `decode` of R58: total, a pure function of the word, it reads no state (R60). -/
def decode (cw : CmdWord) : Except Illegal Instr :=
  if cwZ cw ≠ 0 then .error .reservedBit else decodeOp (cwOp cw) (cwLen cw) (cwData cw)

/-- `OP` of a command (R52). -/
def opOf : Instr → BitVec 4
  | .nop => 0x0
  | .keyld _ => 0x1
  | .enc _ _ => 0x2
  | .dec _ _ => 0x3
  | .clr => 0x4
  | .rdsk _ => 0x5
  | .sub _ => 0x8
  | .isub _ => 0x9
  | .prm _ => 0xA
  | .iprm _ => 0xB

/-- `LEN` of a command: 0 but for the block commands (R54). -/
def lenOf : Instr → BitVec 3
  | .enc _ len => len
  | .dec _ len => len
  | .nop => 0
  | .keyld _ => 0
  | .clr => 0
  | .rdsk _ => 0
  | .sub _ => 0
  | .isub _ => 0
  | .prm _ => 0
  | .iprm _ => 0

/-- `DATA` of a command (R55). -/
def dataOf : Instr → Word
  | .nop => 0
  | .keyld key => key
  | .enc data _ => data
  | .dec data _ => data
  | .clr => 0
  | .rdsk index => index.zeroExtend 32
  | .sub data => data
  | .isub data => data
  | .prm data => data
  | .iprm data => data

/-- The one word of a command: `Z` 0, unused fields 0 (R58; R61: `CW = (OP << 36) or (LEN << 32) or DATA`). -/
def encode (i : Instr) : CmdWord := cwPack (opOf i) 0 (lenOf i) (dataOf i)

/-- The command word whose bits are `w`: a table row's 40 bits are the command word itself, bit 0 its least significant bit;
the bits above `nbits` are 0 (log entry 12). -/
def tableWord (nbits w : Nat) : CmdWord := BitVec.ofNat 40 (w % 2 ^ nbits)

/-- The instruction the decoder reads from the opcode table's bits `w`. -/
def decodeTableWord (nbits w : Nat) : Option Instr := (decode (tableWord nbits w)).toOption

end Sys2Proof
end

