-- ==== Sys2Proof/Machine/Operands.lean ====
section
/-! DEFINITION. The operand forms: bytes of a block (20_memory.md R34), zero padding by `LEN` (R35), nibbles of a word
(40_sbox_perm_units.md R75), the rotation (41_key_schedule.md R90), the subkey index (R98). -/

namespace Sys2Proof.Machine

/-- `pack_be` (R34): `b0`, the first byte of the block, is the most significant. -/
def packBe (b0 b1 b2 b3 : Byte) : Word := b0 ++ b1 ++ b2 ++ b3

/-- `unpack_be` (R34): the four bytes of a word, the first byte of the block first. -/
def unpackBe (w : Word) : List Byte :=
  [w.extractLsb' 24 8, w.extractLsb' 16 8, w.extractLsb' 8 8, w.extractLsb' 0 8]

/-- `pad_mask` (R35): ones in the `len` high-order bytes. Only `len` 1 to 4 reaches it (R36). -/
def padMask (len : BitVec 3) : Word := (0xFFFFFFFF : Word) <<< (8 * (4 - len.toNat))

/-- `padded` (R35): the bytes beyond `len` are replaced by zero. -/
def padded (data : Word) (len : BitVec 3) : Word := data &&& padMask len

/-- `nib(w, k)` = `w[4k+3:4k]` (R75; 00_scope.md R6). -/
def nib (w : Word) (k : Fin 8) : Nibble := w.extractLsb' (4 * k.val) 4

/-- The word whose nibble `k` is `f k`: the sum over `k` of `f k << 4k` (R75). -/
def ofNibbles (f : Fin 8 → Nibble) : Word :=
  f 7 ++ f 6 ++ f 5 ++ f 4 ++ f 3 ++ f 2 ++ f 1 ++ f 0

/-- `rotl32(v, n)` (R90). -/
def rotl32 (v : Word) (n : Nat) : Word := (v <<< n) ||| (v >>> (32 - n))

/-- The subkey register a `RDSK` index names: 3 names none (R55, R98). -/
def subkeyIndex (index : BitVec 2) : Option (Fin 3) :=
  if h : index.toNat < 3 then some ⟨index.toNat, h⟩ else none

end Sys2Proof.Machine
end

