-- ==== Sys2Proof/Machine/Ops.lean ====
section
/-! DEFINITION. The named operations over the state: reading and writing the subkey file, the commit with its response
(20_memory.md R32), the result register (10_state.md R14), fault entry (60_exceptions.md R146), the return from a fault
(R148), the one execution procedure (R145) and reset (70_reset_and_hazards.md R165). -/

namespace Sys2Proof.Machine

/-- The subkey file, read by index (10_state.md R12). -/
def subkeys (s : State) : Fin 3 → Word
  | 0 => s.sk0
  | 1 => s.sk1
  | 2 => s.sk2

/-- All three subkey registers written together, and `KV <- 1` (R12, 41_key_schedule.md R97). -/
def writeSubkeys (sk : Fin 3 → Word) (s : State) : State :=
  { s with sk0 := sk 0, sk1 := sk 1, sk2 := sk 2, kv := true }

/-- The commit of a command with its response: `BUSY <- 0`, no command is in progress any more, and the response is shown
in the next cycle (20_memory.md R32). -/
def respond (st : Status) (d : Word) (s : State) : State :=
  { s with busy := false, accepted := 0, due := 0, rsp := some ⟨st, d⟩ }

/-- A command's result: `DOUT <- r; DV <- 1; rsp(OK, r)` (10_state.md R14). -/
def commitResult (r : Word) (s : State) : State :=
  respond .ok r { s with dout := r, dv := true }

/-- Fault entry, the one shared operation (60_exceptions.md R146): `FLT <- n; DOUT <- 0; DV <- 0; rsp(n, 0)` and nothing
else. There is no vector, no saved state and no mode. -/
def raiseFault (code : FaultCode) (s : State) : State :=
  respond (.fault code) 0 { s with flt := faultBits code, dout := 0, dv := false }

/-- The answer of a locked core: `rsp(LOCKED, 0)`, no other change (R144). -/
def answerLocked (s : State) : State := respond .locked 0 s

/-- The return from a fault and the end of a session, `CLR` (44_control.md R136, R148): every element of R10 takes its reset
value; `rsp(OK, 0)`. -/
def clearSession (s : State) : State :=
  respond .ok 0
    { s with sk0 := 0, sk1 := 0, sk2 := 0, kv := false, dout := 0, dv := false, flt := 0, w := 0, rnd := 0, dir := false }

/-- A rising edge with `rst = 1` (70_reset_and_hazards.md R165, R166): every element takes its reset value, a command in
progress is abandoned and no response is shown. The host's coming events and the model's counter go on (log entry 6). -/
def resetCore (s : State) : State :=
  { State.reset with host := s.host, tick := s.tick + 1 }

/-- Lines 2 to 6 of the execution procedure (R145), in its order: locked, ILLEGAL, NOKEY, SHORTBLK, else the command's own
rule. `legal`: the word is not illegal; `needsKey`: `ENC`, `DEC`, `RDSK`; `short`: a `DEC` whose `LEN` is not 4. -/
def runChecked (legal needsKey short : Bool) (run : State → State) (s : State) : Host.Outcome State Fault Refusal :=
  if isLocked s then .next (answerLocked s)
  else if !legal then .next (raiseFault .illegal s)
  else if needsKey && !s.kv then .next (raiseFault .nokey s)
  else if short then .next (raiseFault .shortblk s)
  else .next (run s)

/-- An illegal command word (R57, R141, R145 lines 2 and 3): LOCKED when locked, else the ILLEGAL fault. -/
def execIllegal (s : State) : Host.Outcome State Fault Refusal := runChecked false false false id s

end Sys2Proof.Machine
end

