-- ==== Sys2Proof/Machine/Units.lean ====
section
/-! DEFINITION. The two leaf units: the inverse tables (40_sbox_perm_units.md R71, R73), the S-box unit and the substitution
layer (R74 to R77), the permutation unit (R78 to R80). All are pure functions of the tables and the word (R82). -/

namespace Sys2Proof.Machine

/-- The inverse of a table, filled as R71 and R73 fill it: for each index `x`, `inv[table[x]] <- x`. For a bijection every
entry is written once, so the initial contents never show (log entry 2). -/
def inverseTable {n : Nat} (t : Table n) : Table n :=
  (List.finRange n).foldl (fun (inv : Table n) x => inv.set (t[x] : Fin n) x) t

/-- `SBOX[x]` (R70). -/
def sboxAt (t : Tables) (x : Nibble) : Nibble := BitVec.ofFin (t.sbox[x.toFin])

/-- `ISBOX[x]` (R71). -/
def isboxAt (t : Tables) (x : Nibble) : Nibble := BitVec.ofFin ((inverseTable t.sbox)[x.toFin])

/-- One S-box unit, 4 bits in, 4 bits out, with the inverse select (R74). -/
def sboxUnit (t : Tables) (x : Nibble) (inv : Bool) : Nibble :=
  if inv then isboxAt t x else sboxAt t x

/-- `substitute` (R76): eight S-box units side by side, unit `k` on nibble `k`. -/
def substitute (t : Tables) (w : Word) : Word := ofNibbles fun k => sboxUnit t (nib w k) false

/-- `substitute_inverse` (R77). -/
def substituteInverse (t : Tables) (w : Word) : Word := ofNibbles fun k => sboxUnit t (nib w k) true

/-- `out[d] <- b`. -/
def setBit (out : Word) (d : Fin 32) (b : Bool) : Word :=
  (out &&& ~~~(BitVec.twoPow 32 d)) ||| (if b then BitVec.twoPow 32 d else 0)

/-- `permute` (R78): for each source position `s`, `out[PERM[s]] <- w[s]`. -/
def permute (t : Tables) (w : Word) : Word :=
  (List.finRange 32).foldl (fun out (s : Fin 32) => setBit out (t.perm[s]) (w.getLsbD s)) 0

/-- `permute_inverse` (R79): for each position `s`, `out[s] <- w[PERM[s]]`. -/
def permuteInverse (t : Tables) (w : Word) : Word :=
  (List.finRange 32).foldl (fun out (s : Fin 32) => setBit out s (w.getLsbD (t.perm[s] : Fin 32))) 0

/-- The permutation unit, 32 bits in, 32 bits out, with the inverse select (R80). -/
def permUnit (t : Tables) (w : Word) (inv : Bool) : Word :=
  if inv then permuteInverse t w else permute t w

end Sys2Proof.Machine
end

