-- ==== Sys2Proof/Machine/Round.lean ====
section
/-! DEFINITION. The round function and its inverse (42_round_function.md R105 to R108), the two block functions
(43_block_cipher.md R115, R116), and the engine that iterates the round function, one step at a time (R119 to R122). -/

namespace Sys2Proof.Machine

/-- `round_fwd` (R105): substitute, then permute, then XOR with the subkey. -/
def roundFwd (t : Tables) (w sk : Word) : Word := permute t (substitute t w) ^^^ sk

/-- `round_inv` (R106): XOR with the subkey, then the inverse permutation, then the inverse substitution. -/
def roundInv (t : Tables) (w sk : Word) : Word := substituteInverse t (permuteInverse t (w ^^^ sk))

/-- The round function unit (R108). -/
def roundUnit (t : Tables) (w sk : Word) (dir : Bool) : Word :=
  if dir then roundInv t w sk else roundFwd t w sk

/-- `encrypt_word` (R115): subkeys in the order 0, 1, 2. -/
def encryptWord (t : Tables) (sk : Fin 3 → Word) (p : Word) : Word :=
  ([0, 1, 2] : List (Fin 3)).foldl (fun w i => roundFwd t w (sk i)) p

/-- `decrypt_word` (R116, R117): subkeys in the order 2, 1, 0; the one reversal there is. -/
def decryptWord (t : Tables) (sk : Fin 3 → Word) (c : Word) : Word :=
  ([2, 1, 0] : List (Fin 3)).foldl (fun w i => roundInv t w (sk i)) c

/-- The start step of a block operation (R120): `RND` starts at 0 forward, at `N_ROUNDS - 1` = 2 in reverse. -/
def startBlock (dir : Bool) (p : Word) (s : State) : State :=
  { s with dir := dir, w := p, rnd := if dir then 2 else 0 }

/-- The round step that uses `RND` now is the last one (R121). -/
def isLastRound (s : State) : Bool := if s.dir then decide (s.rnd = 0) else decide (s.rnd = 2)

/-- One round step (R121): `RND` steps by one, but for the last step, which leaves it. -/
def roundStep (t : Tables) (s : State) : State :=
  { s with
    w := roundUnit t s.w (subkeys s s.rnd) s.dir
    rnd := if isLastRound s then s.rnd else if s.dir then s.rnd - 1 else s.rnd + 1 }

/-- Up to `n` round steps, and never the last one, which belongs to the commit (R122). -/
def roundsBeforeLast (t : Tables) : Nat → State → State
  | 0, s => s
  | n + 1, s => if isLastRound s then s else roundsBeforeLast t n (roundStep t s)

/-- The commit of a block operation (R122): the round steps still to be taken, the last of them with `DOUT <- W; DV <- 1;
rsp(OK, W)`. There are at most three (log entry 4). -/
def finishBlock (t : Tables) (s : State) : State :=
  commitResult (roundStep t (roundsBeforeLast t 2 s)).w (roundStep t (roundsBeforeLast t 2 s))

end Sys2Proof.Machine
end

