-- ==== Sys2Proof/Machine/Block.lean ====
section
/-! DEFINITION. The commands ENC and DEC as transactions (43_block_cipher.md R124, R125). -/

namespace Sys2Proof.Machine

/-- The state ENC's own rule leaves (R124). -/
def encryptBlock (t : Tables) (data : Word) (len : BitVec 3) (s : State) : State :=
  commitResult (encryptWord t (subkeys s) (padded data len))
    { s with w := encryptWord t (subkeys s) (padded data len), dir := false, rnd := 2 }

/-- The state DEC's own rule leaves (R125). -/
def decryptBlock (t : Tables) (data : Word) (s : State) : State :=
  commitResult (decryptWord t (subkeys s) data)
    { s with w := decryptWord t (subkeys s) data, dir := true, rnd := 0 }

/-- `ENC` (R124): a short plaintext block is padded, not refused. -/
def execEnc (data : Word) (len : BitVec 3) (s : State) : Host.Outcome State Fault Refusal :=
  runChecked (WellFormed.lenLegal len) true false (encryptBlock Config.tables data len) s

/-- `DEC` (R125): a short ciphertext block raises SHORTBLK. -/
def execDec (data : Word) (len : BitVec 3) (s : State) : Host.Outcome State Fault Refusal :=
  runChecked (WellFormed.lenLegal len) true (decide (len ≠ 4)) (decryptBlock Config.tables data) s

end Sys2Proof.Machine
end

