-- ==== Sys2Proof/Machine/Control.lean ====
section
/-! DEFINITION. The control commands NOP and CLR (44_control.md R135, R136). -/

namespace Sys2Proof.Machine

/-- `NOP` (R135): the response and nothing else; it does not get through a lock. -/
def execNop (s : State) : Host.Outcome State Fault Refusal := runChecked true false false (respond .ok 0) s

/-- `CLR` (R136): runs in every state, locked or not (60_exceptions.md R145 lines 1 and 6). -/
def execClr (s : State) : Host.Outcome State Fault Refusal := .next (clearSession s)

end Sys2Proof.Machine
end

