-- ==== Sys2Proof/Machine/Diagnostic.lean ====
section
/-! DEFINITION. The diagnostic commands SUB, ISUB, PRM, IPRM (40_sbox_perm_units.md R83 to R86). They need no key. -/

namespace Sys2Proof.Machine

/-- `SUB` (R83). -/
def execSub (data : Word) (s : State) : Host.Outcome State Fault Refusal :=
  runChecked true false false (commitResult (substitute Config.tables data)) s

/-- `ISUB` (R84). -/
def execIsub (data : Word) (s : State) : Host.Outcome State Fault Refusal :=
  runChecked true false false (commitResult (substituteInverse Config.tables data)) s

/-- `PRM` (R85). -/
def execPrm (data : Word) (s : State) : Host.Outcome State Fault Refusal :=
  runChecked true false false (commitResult (permUnit Config.tables data false)) s

/-- `IPRM` (R86). -/
def execIprm (data : Word) (s : State) : Host.Outcome State Fault Refusal :=
  runChecked true false false (commitResult (permUnit Config.tables data true)) s

end Sys2Proof.Machine
end

