-- ==== Sys2Proof/Machine/KeySchedule.lean ====
section
/-! DEFINITION. The key schedule generator (41_key_schedule.md R90 to R95) and the commands KEYLD and RDSK (R97, R98). -/

namespace Sys2Proof.Machine

/-- `RC(i)` = `KS_CONST xor i`, an integer XOR (R91). -/
def roundConst (i : Fin 3) : Word := ksConst ^^^ BitVec.ofNat 32 i.val

/-- `subkey(k, i)` = `rotl32(k, i + 1) xor RC(i)` (R92). -/
def subkey (k : Word) (i : Fin 3) : Word := rotl32 k (i.val + 1) ^^^ roundConst i

/-- `generate_subkeys(k)` (R93): every member is computed from the master key, none from another member. -/
def generateSubkeys (k : Word) : Fin 3 → Word := fun i => subkey k i

/-- The state KEYLD's own rule leaves (R97): `SK` and `KV` written, the master key not kept (R99), no data in the response. -/
def loadKey (key : Word) (s : State) : State := respond .ok 0 (writeSubkeys (generateSubkeys key) s)

/-- `KEYLD` (R97). -/
def execKeyld (key : Word) (s : State) : Host.Outcome State Fault Refusal :=
  runChecked true false false (loadKey key) s

/-- `RDSK` (R98): an index that names no subkey is an illegal word (R55; log entry 10). -/
def execRdsk (index : BitVec 2) (s : State) : Host.Outcome State Fault Refusal :=
  match subkeyIndex index with
  | some i => runChecked true true false (fun s => commitResult (subkeys s i) s) s
  | none => execIllegal s

end Sys2Proof.Machine
end

