-- ==== Sys2Proof/Machine/Dispatch.lean ====
section
/-! DEFINITION. One arm per command: what the core does with a decoded command (60_exceptions.md R145). -/

namespace Sys2Proof.Machine

def exec (i : Instr) (s : State) : Host.Outcome State Fault Refusal :=
  match i with
  | .nop => Sys2Proof.Machine.execNop s
  | .keyld key => Sys2Proof.Machine.execKeyld key s
  | .enc data len => Sys2Proof.Machine.execEnc data len s
  | .dec data len => Sys2Proof.Machine.execDec data len s
  | .clr => Sys2Proof.Machine.execClr s
  | .rdsk index => Sys2Proof.Machine.execRdsk index s
  | .sub data => Sys2Proof.Machine.execSub data s
  | .isub data => Sys2Proof.Machine.execIsub data s
  | .prm data => Sys2Proof.Machine.execPrm data s
  | .iprm data => Sys2Proof.Machine.execIprm data s

end Sys2Proof.Machine
end

