-- ==== Sys2Proof/Machine/Port.lean ====
section
/-! DEFINITION. The command port (20_memory.md R30 to R33): a whole transaction, and the same thing clock edge by clock
edge: acceptance (R31), the engine's steps while busy (43_block_cipher.md R119 to R123), commit and response (R32). -/

namespace Sys2Proof.Machine

/-- One accepted command word, executed whole (60_exceptions.md R145). -/
def transaction (cw : CmdWord) (s : State) : Host.Outcome State Fault Refusal :=
  match decode cw with
  | .ok i => exec i s
  | .error _ => execIllegal s

/-- The command is a block operation that passes every check of R145, so that it starts the engine (43_block_cipher.md
R120, R123: a command that faults never starts it). -/
def startsEngine (i : Instr) (s : State) : Bool :=
  match i with
  | .enc _ len => !isLocked s && WellFormed.lenLegal len && s.kv
  | .dec _ len => !isLocked s && WellFormed.lenLegal len && s.kv && decide (len = 4)
  | .nop => false
  | .keyld _ => false
  | .clr => false
  | .rdsk _ => false
  | .sub _ => false
  | .isub _ => false
  | .prm _ => false
  | .iprm _ => false

/-- The start step, for a command that starts the engine (R120); `DIR` is `OP[0]` of the command (30_encoding.md R53). -/
def startStep (i : Instr) (s : State) : State :=
  match i with
  | .enc data len => startBlock false (padded data len) s
  | .dec data _ => startBlock true data s
  | .nop => s
  | .keyld _ => s
  | .clr => s
  | .rdsk _ => s
  | .sub _ => s
  | .isub _ => s
  | .prm _ => s
  | .iprm _ => s

/-- The command in progress is a block operation the engine runs. -/
def engineRunning (s : State) : Bool :=
  match decode s.accepted with
  | .ok i => startsEngine i s
  | .error _ => false

/-- `BUSY <- 1`; the word is kept and its latency is drawn (R31, R32, R177). -/
def beginCommand (cw : CmdWord) (s : State) : State :=
  { s with busy := true, accepted := cw, due := 1 + Config.extraEdges s.tick cw s.sk0 s.sk1 s.sk2 }

/-- Acceptance of `cw` (R31); a block operation that passes the checks does its start step at this edge, as in the reference
timing of R119 (log entry 4). -/
def acceptWord (cw : CmdWord) (s : State) : State :=
  match decode cw with
  | .ok i => if startsEngine i s then startStep i (beginCommand cw s) else beginCommand cw s
  | .error _ => beginCommand cw s

/-- The commit edge of the command in progress (R32): the engine's last step for a block operation it runs (R122), else the
command's whole effect. -/
def commitWord (s : State) : Host.Outcome State Fault Refusal :=
  if engineRunning s then .next (finishBlock Config.tables s) else transaction s.accepted s

/-- A clock edge of a busy core that is not the commit edge: one edge fewer to go, and the engine, if it runs, takes some
of its round steps, never the last one (R119, R121; log entry 4). -/
def waitEdge (s : State) : State :=
  { (if engineRunning s then roundsBeforeLast Config.tables (Config.roundsAtEdge s.tick) s else s) with due := s.due - 1 }

/-- One rising edge of `clk` with `rst = 0` (R31, R32): a busy core goes on with its command and takes no notice of a
presented word; an idle one accepts the word presented, or does nothing. A response is shown for one cycle only. -/
def clockEdge (valid : Bool) (cw : CmdWord) (s : State) : Host.Outcome State Fault Refusal :=
  if s.busy then
    if s.due ≤ 1 then commitWord { s with rsp := none, tick := s.tick + 1 }
    else .next (waitEdge { s with rsp := none, tick := s.tick + 1 })
  else if valid then .next (acceptWord cw { s with rsp := none, tick := s.tick + 1 })
  else .next { s with rsp := none, tick := s.tick + 1 }

/-- What the next event of the host makes of the state (log entry 6). A command presented to a busy core is held: the edge
passes, and the event stays. A host with no event left presents nothing. -/
def runHost (s : State) : Host.Outcome State Fault Refusal :=
  match s.host with
  | [] => clockEdge false 0 s
  | .command cw :: rest => if s.busy then clockEdge true cw s else transaction cw { s with host := rest }
  | .edge valid cw :: rest => clockEdge valid cw { s with host := rest }
  | .reset :: rest => .next (resetCore { s with host := rest })

/-- The host presents `cw` next, to an idle core: what the next step needs in order to run that word (log entry 12). -/
def presentNext (cw : CmdWord) (s : State) : State :=
  { s with busy := false, accepted := 0, due := 0, host := .command cw :: s.host }

end Sys2Proof.Machine
end

