-- ==== Sys2Proof/Machine/Step.lean ====
section
/-! DEFINITION. One step of the machine: the next event of the host (20_memory.md R33; log entry 6). -/

namespace Sys2Proof.Machine

/-- One step: a whole command, one clock edge, or one edge with `rst = 1`, as the host's next event says. -/
def step (s : State) : Host.Outcome State Fault Refusal := runHost s

/-- `s` with the opcode table's word `w` presented next, so that the next step runs exactly it (log entry 12). -/
def State.withFetchWord (s : State) (nbits w : Nat) : State := presentNext (tableWord nbits w) s

end Sys2Proof.Machine
end

