-- ==== Sys2Proof/Machine/Assembler.lean ====
section
/-! DEFINITION. The assembler syntax and the pseudo-commands (30_encoding.md R61, R62), over lists of characters. It is a
host's tool: the machine never uses it. What the spec leaves open of the syntax is in log entry 16. -/

namespace Sys2Proof.Machine

/-- The value of one hexadecimal digit, either case (R61). -/
def hexDigit (c : Char) : Option Nat :=
  let n := c.toNat
  if 48 ≤ n ∧ n ≤ 57 then some (n - 48)
  else if 65 ≤ n ∧ n ≤ 70 then some (n - 55)
  else if 97 ≤ n ∧ n ≤ 102 then some (n - 87)
  else none

/-- The number written by digits of the given base, most significant first. -/
def digitsValue (base : Nat) (digit : Char → Option Nat) : Nat → List Char → Option Nat
  | acc, [] => some acc
  | acc, c :: rest =>
    match digit c with
    | some d => if d < base then digitsValue base digit (acc * base + d) rest else none
    | none => none

/-- Exactly `len` hexadecimal digits. -/
def hexDigits (len : Nat) (cs : List Char) : Option Nat :=
  if cs.length = len then digitsValue 16 hexDigit 0 cs else none

/-- `0x` and exactly `len` hexadecimal digits (R61). -/
def hexNumber (len : Nat) : List Char → Option Nat
  | '0' :: 'x' :: cs => hexDigits len cs
  | _ => none

/-- A decimal number of at least one digit (R61). -/
def decNumber (cs : List Char) : Option Nat :=
  if cs = [] then none else digitsValue 10 hexDigit 0 cs

/-- `<key32>` and `<word32>`: `0x` and exactly eight digits (R61). -/
def word32 (cs : List Char) : Option Word := (hexNumber 8 cs).map (BitVec.ofNat 32)

/-- A byte value of a pseudo-command: `0x` and two digits (R62; log entry 16). -/
def byte8 (cs : List Char) : Option Byte := (hexNumber 2 cs).map (BitVec.ofNat 8)

/-- `<len>`: 1 to 4; out of range is an assembly error (R61). -/
def lenOperand (cs : List Char) : Option (BitVec 3) :=
  match decNumber cs with
  | some n => if 1 ≤ n ∧ n ≤ 4 then some (BitVec.ofNat 3 n) else none
  | none => none

/-- `<index>`: 0, 1 or 2; out of range is an assembly error (R61). -/
def indexOperand (cs : List Char) : Option (BitVec 2) :=
  match decNumber cs with
  | some n => if n ≤ 2 then some (BitVec.ofNat 2 n) else none
  | none => none

/-- The block word of 1 to 4 bytes, absent bytes taken as 0 (R62; 20_memory.md R35). -/
def blockOfBytes (bs : List Byte) : Word := packBe (bs.getD 0 0) (bs.getD 1 0) (bs.getD 2 0) (bs.getD 3 0)

/-- `ENCB` and `DECB`: `ENC` or `DEC` of the packed bytes with their number as `LEN` (R62). -/
def blockPseudo (make : Word → BitVec 3 → Instr) (bs : List Byte) : Option (List Instr) :=
  if 1 ≤ bs.length ∧ bs.length ≤ 4 then some [make (blockOfBytes bs) (BitVec.ofNat 3 bs.length)] else none

/-- `REKEY key`: `CLR`, then `KEYLD key` (R62). -/
def rekeyPseudo (key : Word) : List Instr := [.clr, .keyld key]

/-- The external form of a key: exactly 8 hexadecimal digits, either case (R62; 41_key_schedule.md R100). -/
def parseKey (cs : List Char) : Option Word := (hexDigits 8 cs).map (BitVec.ofNat 32)

/-- `KEYHEX`: the digits between double quotes (R62). -/
def keyhexPseudo : List Char → Option (List Instr)
  | '"' :: cs =>
    if cs.getLast? = some '"' then (parseKey cs.dropLast).map fun key => [.keyld key] else none
  | _ => none

/-- Space or tab. -/
def isBlank (c : Char) : Bool := c = ' ' || c = '\t'

/-- Without blanks at either end. -/
def trimBlanks (cs : List Char) : List Char := ((cs.dropWhile isBlank).reverse.dropWhile isBlank).reverse

/-- The operands of a line, separated by commas. -/
def splitOperands (cs : List Char) : List (List Char) :=
  if cs = [] then [] else (cs.splitOn ',').map trimBlanks

/-- A command with one 32-bit operand. -/
def oneWord (make : Word → Instr) (ops : List (List Char)) : Option (List Instr) :=
  match ops with
  | [a] => (word32 a).map fun w => [make w]
  | _ => none

/-- `ENC` and `DEC`: the length may be left out and is then 4 (R61). -/
def wordAndLen (make : Word → BitVec 3 → Instr) (ops : List (List Char)) : Option (List Instr) :=
  match ops with
  | [a] => (word32 a).map fun w => [make w 4]
  | [a, b] =>
    match word32 a, lenOperand b with
    | some w, some n => some [make w n]
    | _, _ => none
  | _ => none

/-- A command without operands. -/
def noOperand (i : Instr) (ops : List (List Char)) : Option (List Instr) := if ops = [] then some [i] else none

/-- One mnemonic with its operands (R61, R62). -/
def assembleOp (mnemonic : List Char) (ops : List (List Char)) : Option (List Instr) :=
  match mnemonic with
  | ['N', 'O', 'P'] => noOperand .nop ops
  | ['K', 'E', 'Y', 'L', 'D'] => oneWord .keyld ops
  | ['E', 'N', 'C'] => wordAndLen .enc ops
  | ['D', 'E', 'C'] => wordAndLen .dec ops
  | ['C', 'L', 'R'] => noOperand .clr ops
  | ['R', 'D', 'S', 'K'] =>
    match ops with
    | [a] => (indexOperand a).map fun i => [.rdsk i]
    | _ => none
  | ['S', 'U', 'B'] => oneWord .sub ops
  | ['I', 'S', 'U', 'B'] => oneWord .isub ops
  | ['P', 'R', 'M'] => oneWord .prm ops
  | ['I', 'P', 'R', 'M'] => oneWord .iprm ops
  | ['E', 'N', 'C', 'B'] => (ops.mapM byte8).bind (blockPseudo .enc)
  | ['D', 'E', 'C', 'B'] => (ops.mapM byte8).bind (blockPseudo .dec)
  | ['R', 'E', 'K', 'E', 'Y'] =>
    match ops with
    | [a] => (word32 a).map rekeyPseudo
    | _ => none
  | ['K', 'E', 'Y', 'H', 'E', 'X'] =>
    match ops with
    | [a] => keyhexPseudo a
    | _ => none
  | _ => none

/-- One line: `;` starts a comment, an empty line gives no command, anything not of the syntax is an assembly error (R61). -/
def assembleLine (line : List Char) : Option (List CmdWord) :=
  let code := trimBlanks (line.takeWhile (· ≠ ';'))
  if code = [] then some []
  else
    (assembleOp (code.takeWhile fun c => !isBlank c) (splitOperands (trimBlanks (code.dropWhile fun c => !isBlank c)))).map
      (List.map encode)

end Sys2Proof.Machine
end

