-- ==== Sys2Proof/Machine/Session.lean ====
section
/-! DEFINITION. What a host puts on the port for one file, and what it makes of the results (20_memory.md R47, R48;
70_reset_and_hazards.md R170, R174, R175). These rules bind the host, not the core (00_scope.md R3 (a)): the machine never uses
this file (log entry 15). -/

namespace Sys2Proof.Machine

/-- Successive 4-byte chunks; only the last can be shorter, and an empty rest gives none (R47). -/
def chunks : List Byte → List (List Byte)
  | [] => []
  | [a] => [[a]]
  | [a, b] => [[a, b]]
  | [a, b, c] => [[a, b, c]]
  | a :: b :: c :: d :: rest => [a, b, c, d] :: chunks rest

/-- A session: `KEYLD` once, the blocks in file order, `CLR` once (R170). -/
def session (make : Word → BitVec 3 → Instr) (key : Word) (bytes : List Byte) : List Instr :=
  .keyld key :: (chunks bytes).map (fun c => make (blockOfBytes c) (BitVec.ofNat 3 c.length)) ++ [.clr]

/-- The commands that encrypt a file: one `ENC` a chunk, with the chunk's length (R47). -/
def encryptSession (key : Word) (plain : List Byte) : List Instr := session .enc key plain

/-- The commands that decrypt a file: one `DEC` a chunk, a short one with its short `LEN`, for the core to raise SHORTBLK
(R48, R175). -/
def decryptSession (key : Word) (cipher : List Byte) : List Instr := session .dec key cipher

/-- The commands as events of the port. -/
def sessionEvents (commands : List Instr) : List HostEvent := commands.map fun i => .command (encode i)

/-- The bytes of the result words, in order (R34, R47). -/
def resultBytes (results : List Word) : List Byte := results.flatMap unpackBe

/-- Every trailing zero byte stripped, padding or not (R48; 93_implementation_defined.md U1). -/
def stripTrailingZeros (bytes : List Byte) : List Byte := (bytes.reverse.dropWhile (· = 0)).reverse

end Sys2Proof.Machine
end

