-- ==== Sys2Proof/Safety.lean ====
section
/-! DEFINITION. What holds between steps: the invariants of 10_state.md R26, of the port (20_memory.md R31, R32) and of the
engine (43_block_cipher.md R119 to R121), and the words claims use. -/

namespace Sys2Proof.Machine

/-- R26 (a) and (b): without a key every subkey register is 0; with one, the registers are the subkeys of some master key. -/
def KeyInv (s : State) : Prop :=
  (s.kv = false → ∀ i, subkeys s i = 0) ∧ (s.kv = true → ∃ k, ∀ i, subkeys s i = subkey k i)

/-- R26 (c) and (d): without a result `DOUT` is 0, and a locked core shows no result. -/
def ResultInv (s : State) : Prop :=
  (s.dv = false → s.dout = 0) ∧ (s.flt ≠ 0 → s.dv = false ∧ s.dout = 0)

/-- R26 (e): `FLT` holds 0, 1, 2 or 3. -/
def FltInv (s : State) : Prop := s.flt.toNat ≤ 3

/-- The port: an idle core keeps no accepted word and owes no edge; a busy one owes at least one edge and shows no response
(20_memory.md R31, R32). -/
def PortInv (s : State) : Prop :=
  (s.busy = false → s.accepted = 0 ∧ s.due = 0) ∧ (s.busy = true → 1 ≤ s.due ∧ s.rsp = none)

/-- The engine: while it runs a block operation, the state is what the start step and some number of round steps of that
operation make of it (43_block_cipher.md R120, R121). -/
def EngineInv (s : State) : Prop :=
  s.busy = true → ∀ i, decode s.accepted = .ok i → startsEngine i s = true →
    ∃ n, roundsBeforeLast Config.tables n (startStep i s) = s

/-- Every invariant together. It holds in every state, busy or not (R26 asks it of idle states). -/
structure Inv (s : State) : Prop where
  key : KeyInv s
  result : ResultInv s
  flt : FltInv s
  port : PortInv s
  engine : EngineInv s

/-- Every element of 10_state.md R10 has the value 0 (R24). -/
def CoreIsReset (s : State) : Prop :=
  s.sk0 = 0 ∧ s.sk1 = 0 ∧ s.sk2 = 0 ∧ s.kv = false ∧ s.dout = 0 ∧ s.dv = false ∧ s.flt = 0 ∧
    s.w = 0 ∧ s.rnd = 0 ∧ s.dir = false ∧ s.busy = false

/-- The two states hold the same key material, result and fault: what a host can observe but for `BUSY` (10_state.md R10,
"arch."). -/
def SameVisible (s t : State) : Prop :=
  t.sk0 = s.sk0 ∧ t.sk1 = s.sk1 ∧ t.sk2 = s.sk2 ∧ t.kv = s.kv ∧ t.dout = s.dout ∧ t.dv = s.dv ∧ t.flt = s.flt

/-- The engine's registers are the same (10_state.md R16). -/
def SameEngine (s t : State) : Prop := t.w = s.w ∧ t.rnd = s.rnd ∧ t.dir = s.dir

/-- The command needs a key (60_exceptions.md R145 line 4). -/
def NeedsKey (i : Instr) : Prop := (∃ d n, i = .enc d n) ∨ (∃ d n, i = .dec d n) ∨ ∃ x, i = .rdsk x

/-- The command is a `DEC` of a short block (R145 line 5). -/
def ShortDec (i : Instr) : Prop := ∃ d n, i = .dec d n ∧ n ≠ 4

/-- The command word is illegal, said in numbers of the whole word (30_encoding.md R57, with R52, R54, R55, R56): `Z` is 1, the
opcode is reserved, `LEN` is not legal for the opcode, or `DATA` is not legal for the opcode. -/
def IllegalWord (cw : CmdWord) : Prop :=
  let op := cw.toNat / 2 ^ 36
  let z := cw.toNat / 2 ^ 35 % 2
  let len := cw.toNat / 2 ^ 32 % 8
  let d := cw.toNat % 2 ^ 32
  z = 1 ∨ op ∈ [0x6, 0x7, 0xC, 0xD, 0xE, 0xF] ∨ (op ∈ [0x2, 0x3] ∧ len ∈ [0, 5, 6, 7]) ∨
    (op ∉ [0x2, 0x3] ∧ len ≠ 0) ∨ (op ∈ [0x0, 0x4] ∧ d ≠ 0) ∨ (op = 0x5 ∧ 3 ≤ d)

/-- The number of 1 bits of a word. -/
def popCount (w : Word) : Nat := (List.finRange 32).countP fun i => w.getLsbD i.val

end Sys2Proof.Machine
end

