-- ==== Sys2Proof/Certificates/Slice0/Obligations.lean ====
section
/-! DEFINITION. What is stated of the machine, for the provers: each statement names the rules of spec/ it rests on. -/

section

open Sys2Proof Sys2Proof.Machine

/-! Where a statement gives a whole next state, its fields `accepted` and `due` (0 once a command has ended), `tick` and `host`
are the model's own bookkeeping (log entries 3, 5, 6 and 7), not rules of the spec. -/

/-! ### Encoding -/

/-- 30_encoding.md R58: `decode(encode(c)) = c` for every command, every operand value the encoding admits. -/
def Obligations.DecodeOfEncodeIsTheCommand : Prop := ∀ i : Instr, i.wf = true → decode (encode i) = .ok i

/-- R58: `encode(decode(CW)) = CW` for every word that is not illegal; what is decoded is well formed. -/
def Obligations.EncodeOfDecodeIsTheWord : Prop :=
  ∀ (cw : CmdWord) (i : Instr), decode cw = .ok i → i.wf = true ∧ encode i = cw

/-- R56, R57: the illegal words are exactly those with `Z` = 1, a reserved opcode, or a `LEN` or `DATA` not legal for the
opcode; executed, one raises ILLEGAL on an unlocked core and gets LOCKED on a locked one, and computes nothing. -/
def Obligations.IllegalWordsFaultOrAreLocked : Prop :=
  ∀ cw : CmdWord,
    ((∃ r, decode cw = .error r) ↔ IllegalWord cw) ∧
    (IllegalWord cw → ∀ s : State,
      (s.flt = 0 → transaction cw s = .next { s with
        flt := 1, dout := 0, dv := false, busy := false, accepted := 0, due := 0, rsp := some ⟨.fault .illegal, 0⟩ }) ∧
      (s.flt ≠ 0 → transaction cw s = .next { s with
        busy := false, accepted := 0, due := 0, rsp := some ⟨.locked, 0⟩ }))

/-- Words of 95_test_vectors.md section 3.3, each with the command R58 gives it. -/
def Obligations.SpecWordsDecode : Prop :=
  decode 0x0000000000 = .ok .nop ∧ decode 0x1012345678 = .ok (.keyld 0x12345678) ∧
  decode 0x224142FFFF = .ok (.enc 0x4142FFFF 2) ∧ decode 0x3458BEE376 = .ok (.dec 0x58BEE376 4) ∧
  decode 0x4000000000 = .ok .clr ∧ decode 0x5000000002 = .ok (.rdsk 2) ∧
  decode 0x8012345678 = .ok (.sub 0x12345678) ∧ decode 0x90FFFFFFFF = .ok (.isub 0xFFFFFFFF) ∧
  decode 0xA000000001 = .ok (.prm 0x00000001) ∧ decode 0xB080000000 = .ok (.iprm 0x80000000)

/-- Executing a command is executing its encoded word (R58, 60_exceptions.md R145), a command with operands that are not legal
included: its word is illegal. -/
def Obligations.ExecIsTheEncodedWord : Prop := ∀ (i : Instr) (s : State), exec i s = transaction (encode i) s

/-! ### The step -/

/-- A step runs the decoded command: on an idle core the word the host presents next is executed whole, and the event is taken
from the host's list; an illegal word gets R145 lines 2 and 3. A word placed by `withFetchWord` is executed by the next step.
Every other step with `rst = 0` is one clock edge (20_memory.md R31, 70_reset_and_hazards.md R171): with the pins the host's event
drives, which is taken; with nothing presented when no event is left; with a command held against a busy core, which stays. That
the host's events stand in the state is the model's choice (log entries 6 and 12). -/
def Obligations.StepRunsTheDecodedCommand : Prop :=
  (∀ (s : State) (cw : CmdWord) (rest : List HostEvent) (i : Instr),
    s.host = .command cw :: rest → s.busy = false → decode cw = .ok i → step s = exec i { s with host := rest }) ∧
  (∀ (s : State) (cw : CmdWord) (rest : List HostEvent) (r : Illegal),
    s.host = .command cw :: rest → s.busy = false → decode cw = .error r → step s = execIllegal { s with host := rest }) ∧
  (∀ (s : State) (cw : CmdWord) (i : Instr), decode cw = .ok i →
    step (s.withFetchWord 40 cw.toNat) = exec i { s with busy := false, accepted := 0, due := 0 }) ∧
  (∀ (s : State) (valid : Bool) (cw : CmdWord) (rest : List HostEvent),
    s.host = .edge valid cw :: rest → step s = clockEdge valid cw { s with host := rest }) ∧
  (∀ s : State, s.host = [] → step s = clockEdge false 0 s) ∧
  (∀ (s : State) (cw : CmdWord) (rest : List HostEvent),
    s.host = .command cw :: rest → s.busy = true → step s = clockEdge true cw s)

/-- 70_reset_and_hazards.md R178: the core never hangs; every step from every state gives a next state. -/
def Obligations.StepNeverStops : Prop := ∀ s : State, ∃ t, step s = .next t

/-! ### Reset -/

/-- 10_state.md R24: after reset every element is zero. -/
def Obligations.ResetStateIsZero : Prop := CoreIsReset State.reset

/-- 70_reset_and_hazards.md R165, R166: an edge with `rst = 1`, in any state, a command in progress or not, makes every element
zero (`BUSY` too: the command is abandoned) and shows no response; while `rst = 1` no command is accepted and `rsp_valid` is 0. -/
def Obligations.ResetFromAnyState : Prop :=
  (∀ (s : State) (rest : List HostEvent), s.host = .reset :: rest →
    ∃ t, step s = .next t ∧ CoreIsReset t ∧ t.rsp = none) ∧
  (∀ s : State, (portOutputs true s).cmdReady = false ∧ (portOutputs true s).rspValid = false)

/-- R168, 60_exceptions.md R159, R173, 20_memory.md R32: in a state whose elements are as after reset the core is ready and `status`
and `dout` are zero. In every idle state, those included, a step in which the host presents nothing (`cmd_valid` = 0 with any
`cmd_word`, or no event left: the events are the model's form of the host, log entry 6) leaves every element as it is, and a
response shown before is gone: it lasts one cycle. -/
def Obligations.ResetCoreWaits : Prop :=
  (∀ s : State, CoreIsReset s → (portOutputs false s).cmdReady = true ∧ (portOutputs false s).status = 0 ∧
    (portOutputs false s).dout = 0) ∧
  ∀ s : State, s.busy = false → (s.host = [] ∨ ∃ cw rest, s.host = .edge false cw :: rest) →
    ∃ t, step s = .next t ∧ SameVisible s t ∧ SameEngine s t ∧ t.busy = false ∧ t.rsp = none ∧ t.host = s.host.tail ∧
      (CoreIsReset s → CoreIsReset t)

/-! ### Faults and the lock -/

/-- 60_exceptions.md R141 to R143, R146: which word raises which fault on an unlocked core, in the priority of R145, and what
fault entry writes: `FLT` the code, `DOUT` and `DV` zero, `BUSY` at the commit, the response, and nothing else the core holds.
Any other word ends OK. -/
def Obligations.FaultPriorityAndEntry : Prop :=
  ∀ (s : State) (cw : CmdWord), s.flt = 0 →
    let entry (n : BitVec 3) (c : FaultCode) : Prop := ∃ t, transaction cw s = .next t ∧ t = { s with
      flt := n, dout := 0, dv := false, busy := false, rsp := some ⟨.fault c, 0⟩, accepted := t.accepted, due := t.due }
    ((∃ r, decode cw = .error r) → entry 1 .illegal) ∧
    (∀ i, decode cw = .ok i →
      (NeedsKey i → s.kv = false → entry 2 .nokey) ∧
      (ShortDec i → s.kv = true → entry 3 .shortblk) ∧
      (¬ (NeedsKey i ∧ s.kv = false) → ¬ ShortDec i →
        ∃ t d, transaction cw s = .next t ∧ t.rsp = some ⟨.ok, d⟩ ∧ t.flt = 0))

/-- R144: a locked core ignores every word but a well-formed `CLR` and answers LOCKED, `ST` = 4, data 0; nothing is recorded. -/
def Obligations.LockedCoreIgnoresOtherWords : Prop :=
  (∀ (s : State) (cw : CmdWord), s.flt ≠ 0 → decode cw ≠ .ok .clr →
    ∃ t, transaction cw s = .next t ∧
      t = { s with busy := false, rsp := some ⟨.locked, 0⟩, accepted := t.accepted, due := t.due }) ∧
  rspWord ⟨.locked, 0⟩ = 0x400000000

/-- R147, R149: from a fault until the next `CLR` or reset no step changes any element the core holds but `BUSY`. The steps left
out are a reset edge, a `CLR` presented to an idle core, and a `CLR` in progress; a `CLR` that the host only holds against a busy
core executes nothing yet (20_memory.md R31, 70_reset_and_hazards.md R171). -/
def Obligations.LockHoldsUntilClearOrReset : Prop :=
  ∀ s t : State, s.flt ≠ 0 → (∀ rest, s.host ≠ .reset :: rest) → (s.busy = true → decode s.accepted ≠ .ok .clr) →
    (s.busy = false → ∀ cw rest, s.host = .command cw :: rest → decode cw ≠ .ok .clr) → step s = .next t →
    SameVisible s t ∧ SameEngine s t

/-- 30_encoding.md R51, R63: a response word is `{ST, DATA}`, with `ST` 0 OK, 1 ILLEGAL, 2 NOKEY, 3 SHORTBLK, 4 LOCKED. -/
def Obligations.ResponseWordCarriesStatusAndData : Prop :=
  ∀ d : Word,
    (rspWord ⟨.ok, d⟩).toNat = d.toNat ∧ (rspWord ⟨.fault .illegal, d⟩).toNat = 1 * 2 ^ 32 + d.toNat ∧
    (rspWord ⟨.fault .nokey, d⟩).toNat = 2 * 2 ^ 32 + d.toNat ∧
    (rspWord ⟨.fault .shortblk, d⟩).toNat = 3 * 2 ^ 32 + d.toNat ∧ (rspWord ⟨.locked, d⟩).toNat = 4 * 2 ^ 32 + d.toNat

/-! ### The commands -/

/-- 44_control.md R135: `NOP` on an unlocked core answers OK with data 0 and changes no element. -/
def Obligations.NopOnlyResponds : Prop :=
  ∀ s : State, s.flt = 0 →
    exec .nop s = .next { s with busy := false, accepted := 0, due := 0, rsp := some ⟨.ok, 0⟩ }

/-- 44_control.md R136, 60_exceptions.md R148: `CLR` completes in every state, locked or not, and every element then has its
reset value. -/
def Obligations.ClrRestoresTheResetState : Prop :=
  ∀ s : State, ∃ t, exec .clr s = .next t ∧ CoreIsReset t ∧ t.accepted = 0 ∧ t.due = 0 ∧ t.rsp = some ⟨.ok, 0⟩ ∧
    t.tick = s.tick ∧ t.host = s.host

/-- 41_key_schedule.md R97, R93: `KEYLD` on an unlocked core writes the three subkeys and `KV`, answers OK with data 0, and
writes nothing else. -/
def Obligations.KeyldStoresTheSubkeys : Prop :=
  ∀ (s : State) (k : Word), s.flt = 0 →
    exec (.keyld k) s = .next { s with
      sk0 := k.rotateLeft 1 ^^^ 0xA5A5A5A5, sk1 := k.rotateLeft 2 ^^^ 0xA5A5A5A4, sk2 := k.rotateLeft 3 ^^^ 0xA5A5A5A7
      kv := true, busy := false, accepted := 0, due := 0, rsp := some ⟨.ok, 0⟩ }

/-- 41_key_schedule.md R98: `RDSK` on an unlocked core with a key reads the subkey its index names into `DOUT`. -/
def Obligations.RdskReadsTheSubkey : Prop :=
  ∀ s : State, s.flt = 0 → s.kv = true →
    let read (sk : Word) : State := { s with
      dout := sk, dv := true, busy := false, accepted := 0, due := 0, rsp := some ⟨.ok, sk⟩ }
    exec (.rdsk 0) s = .next (read s.sk0) ∧ exec (.rdsk 1) s = .next (read s.sk1) ∧ exec (.rdsk 2) s = .next (read s.sk2)

/-- 43_block_cipher.md R124, R115, 20_memory.md R35: `ENC` on an unlocked core with a key, `LEN` 1 to 4: the padded block goes
through substitute, permute, XOR with `SK[0]`, `SK[1]`, `SK[2]` in this order; the ciphertext goes to `DOUT` and `W`. -/
def Obligations.EncWritesTheCiphertext : Prop :=
  ∀ (s : State) (data : Word) (len : BitVec 3), s.flt = 0 → s.kv = true → 1 ≤ len.toNat → len.toNat ≤ 4 →
    let mask : Word := if len = 1 then 0xFF000000 else if len = 2 then 0xFFFF0000 else if len = 3 then 0xFFFFFF00 else 0xFFFFFFFF
    let ps (w : Word) : Word := permute Config.tables (substitute Config.tables w)
    let c : Word := ps (ps (ps (data &&& mask) ^^^ s.sk0) ^^^ s.sk1) ^^^ s.sk2
    exec (.enc data len) s = .next { s with
      dout := c, dv := true, w := c, dir := false, rnd := 2, busy := false, accepted := 0, due := 0, rsp := some ⟨.ok, c⟩ }

/-- 43_block_cipher.md R125, R116: `DEC` of a full block on an unlocked core with a key: XOR, inverse permute, inverse
substitute with `SK[2]`, `SK[1]`, `SK[0]` in this order; the plaintext goes to `DOUT` and `W`. -/
def Obligations.DecWritesThePlaintext : Prop :=
  ∀ (s : State) (data : Word), s.flt = 0 → s.kv = true →
    let sp (w : Word) : Word := substituteInverse Config.tables (permuteInverse Config.tables w)
    let p : Word := sp (sp (sp (data ^^^ s.sk2) ^^^ s.sk1) ^^^ s.sk0)
    exec (.dec data 4) s = .next { s with
      dout := p, dv := true, w := p, dir := true, rnd := 0, busy := false, accepted := 0, due := 0, rsp := some ⟨.ok, p⟩ }

/-- 40_sbox_perm_units.md R83, R76: `SUB` on an unlocked core, with or without a key: nibble `k` of the result is the S-box's
entry for nibble `k` of the operand. -/
def Obligations.SubMapsEveryNibble : Prop :=
  ∀ (s : State) (w : Word), s.flt = 0 →
    ∃ r : Word, exec (.sub w) s = .next { s with
        dout := r, dv := true, busy := false, accepted := 0, due := 0, rsp := some ⟨.ok, r⟩ } ∧
      ∀ k : Fin 8, (r.toNat / 16 ^ k.val) % 16 =
        (Config.tables.sbox[(w.toNat / 16 ^ k.val) % 16]'(Nat.mod_lt _ (by decide))).val

/-- R84, R77, R71: `ISUB` on an unlocked core: the S-box's entry for nibble `k` of the result is nibble `k` of the operand. -/
def Obligations.IsubUndoesEveryNibble : Prop :=
  ∀ (s : State) (w : Word), s.flt = 0 →
    ∃ r : Word, exec (.isub w) s = .next { s with
        dout := r, dv := true, busy := false, accepted := 0, due := 0, rsp := some ⟨.ok, r⟩ } ∧
      ∀ k : Fin 8, (w.toNat / 16 ^ k.val) % 16 =
        (Config.tables.sbox[(r.toNat / 16 ^ k.val) % 16]'(Nat.mod_lt _ (by decide))).val

/-- R85, R78: `PRM` on an unlocked core: bit `PERM[p]` of the result is bit `p` of the operand. -/
def Obligations.PrmMovesEveryBit : Prop :=
  ∀ (s : State) (w : Word), s.flt = 0 →
    ∃ r : Word, exec (.prm w) s = .next { s with
        dout := r, dv := true, busy := false, accepted := 0, due := 0, rsp := some ⟨.ok, r⟩ } ∧
      ∀ p : Fin 32, r.getLsbD (Config.tables.perm[p]).val = w.getLsbD p.val

/-- R86, R79: `IPRM` on an unlocked core: bit `p` of the result is bit `PERM[p]` of the operand. -/
def Obligations.IprmMovesEveryBitBack : Prop :=
  ∀ (s : State) (w : Word), s.flt = 0 →
    ∃ r : Word, exec (.iprm w) s = .next { s with
        dout := r, dv := true, busy := false, accepted := 0, due := 0, rsp := some ⟨.ok, r⟩ } ∧
      ∀ p : Fin 32, r.getLsbD p.val = w.getLsbD (Config.tables.perm[p]).val

/-- The frame of every command, in every next state (10_state.md R14, R20, R25; 60_exceptions.md R146, R150): only `KEYLD` and
`CLR` write `SK` or `KV`, only `ENC`, `DEC` and `CLR` write `W`, `RND` or `DIR`, `NOP` and `KEYLD` leave `DOUT`, `DV` and `FLT`
on an unlocked core, a command that ends OK leaves `FLT`, no command is in progress afterwards, and the host's events stay. -/
def Obligations.CommandsKeepWhatTheyDoNotWrite : Prop :=
  ∀ (i : Instr) (s t : State), exec i s = .next t →
    (i ≠ .clr → (∀ k, i ≠ .keyld k) → t.sk0 = s.sk0 ∧ t.sk1 = s.sk1 ∧ t.sk2 = s.sk2 ∧ t.kv = s.kv) ∧
    (i ≠ .clr → (∀ d n, i ≠ .enc d n) → (∀ d n, i ≠ .dec d n) → SameEngine s t) ∧
    ((i = .nop ∨ ∃ k, i = .keyld k) → s.flt = 0 → t.dout = s.dout ∧ t.dv = s.dv ∧ t.flt = s.flt) ∧
    (i ≠ .clr → (∃ d, t.rsp = some ⟨.ok, d⟩) → t.flt = s.flt) ∧
    t.busy = false ∧ t.tick = s.tick ∧ t.host = s.host

/-- 30_encoding.md R53, 40_sbox_perm_units.md R74, R80, R83 to R86: in the pairs `ENC`/`DEC`, `SUB`/`ISUB`, `PRM`/`IPRM`, `OP[0]` is
the direction: copied into `DIR` when a block command starts the engine, and the inverse select of the units for the diagnostic
commands, whose result is then committed (`accepted` and `due` at 0: log entries 3 and 7). -/
def Obligations.OpcodeBitZeroIsTheDirection : Prop :=
  (∀ (i : Instr) (s : State), startsEngine i s = true → (startStep i s).dir = (opOf i).getLsbD 0) ∧
  (∀ (s : State) (w : Word), s.flt = 0 →
    exec (.sub w) s = .next (commitResult (ofNibbles fun k => sboxUnit Config.tables (nib w k) ((opOf (.sub w)).getLsbD 0)) s) ∧
    exec (.isub w) s = .next (commitResult (ofNibbles fun k => sboxUnit Config.tables (nib w k) ((opOf (.isub w)).getLsbD 0)) s) ∧
    exec (.prm w) s = .next (commitResult (permUnit Config.tables w ((opOf (.prm w)).getLsbD 0)) s) ∧
    exec (.iprm w) s = .next (commitResult (permUnit Config.tables w ((opOf (.iprm w)).getLsbD 0)) s))

/-! ### The cipher -/

/-- 43_block_cipher.md R118: with a key loaded, `ENC` of a full block and then `DEC` of its result gives the block back, and the
other way round, whatever the tables and the subkeys are. -/
def Obligations.EncAndDecUndoEachOther : Prop :=
  ∀ (s : State) (w : Word), s.flt = 0 → s.kv = true →
    (∃ t u, exec (.enc w 4) s = .next t ∧ exec (.dec t.dout 4) t = .next u ∧ u.dout = w ∧ u.dv = true ∧
      u.rsp = some ⟨.ok, w⟩) ∧
    (∃ t u, exec (.dec w 4) s = .next t ∧ exec (.enc t.dout 4) t = .next u ∧ u.dout = w ∧ u.dv = true ∧
      u.rsp = some ⟨.ok, w⟩)

/-- R126: the result of `ENC` or `DEC` depends on `SK` and the operand only: two unlocked cores with a key and the same subkeys,
whatever else they hold, give the same result and the same response. -/
def Obligations.BlockResultDependsOnKeyAndOperandOnly : Prop :=
  ∀ (s s' : State) (data : Word) (len : BitVec 3), s.flt = 0 → s'.flt = 0 → s.kv = true → s'.kv = true →
    s.sk0 = s'.sk0 → s.sk1 = s'.sk1 → s.sk2 = s'.sk2 →
    (∃ t t', exec (.enc data len) s = .next t ∧ exec (.enc data len) s' = .next t' ∧ t.dout = t'.dout ∧ t.rsp = t'.rsp) ∧
    (∃ t t', exec (.dec data len) s = .next t ∧ exec (.dec data len) s' = .next t' ∧ t.dout = t'.dout ∧ t.rsp = t'.rsp)

/-- 41_key_schedule.md R93: the three subkeys, written out. -/
def Obligations.SubkeySequenceWrittenOut : Prop :=
  ∀ k : Word, generateSubkeys k 0 = k.rotateLeft 1 ^^^ 0xA5A5A5A5 ∧ generateSubkeys k 1 = k.rotateLeft 2 ^^^ 0xA5A5A5A4 ∧
    generateSubkeys k 2 = k.rotateLeft 3 ^^^ 0xA5A5A5A7

/-- R90: rotation left by 1 to 31 moves bit `j` to bit `(j + n) mod 32` and keeps the number of 1 bits; by 0 it changes
nothing. -/
def Obligations.RotationMovesEveryBit : Prop :=
  (∀ (v : Word) (n : Nat), 1 ≤ n → n ≤ 31 →
    (∀ j : Nat, j < 32 → (rotl32 v n).getLsbD ((j + n) % 32) = v.getLsbD j) ∧ popCount (rotl32 v n) = popCount v) ∧
  ∀ v : Word, rotl32 v 0 = v

/-- R96: each subkey is affine in the key and determines it, and the later subkeys are rotations of the first up to
constants. -/
def Obligations.SubkeysDetermineTheKey : Prop :=
  (∀ (a b : Word) (i : Fin 3), subkey (a ^^^ b) i = subkey a i ^^^ subkey b i ^^^ roundConst i) ∧
  (∀ (k : Word) (i : Fin 3), (subkey k i ^^^ roundConst i).rotateRight (i.val + 1) = k) ∧
  (∀ k : Word, subkey k 1 = rotl32 (subkey k 0 ^^^ roundConst 0) 1 ^^^ roundConst 1 ∧
    subkey k 2 = rotl32 (subkey k 0 ^^^ roundConst 0) 2 ^^^ roundConst 2)

/-- 40_sbox_perm_units.md R81: the inverse laws in both orders, for every pair of bijective tables and every word. -/
def Obligations.UnitsUndoTheirInverses : Prop :=
  ∀ t : Tables, t.wf = true → ∀ w : Word,
    permuteInverse t (permute t w) = w ∧ permute t (permuteInverse t w) = w ∧
    substituteInverse t (substitute t w) = w ∧ substitute t (substituteInverse t w) = w

/-- R88 (a) to (d): substitute maps a word of eight equal nibbles to such a word; the permutations keep the number of 1 bits,
are linear over XOR and map a single bit to a single bit. -/
def Obligations.UnitsHaveTheirStructure : Prop :=
  ∀ t : Tables, t.wf = true →
    (∀ x : Nibble, substitute t (ofNibbles fun _ => x) = ofNibbles fun _ => sboxAt t x) ∧
    (∀ w : Word, popCount (permute t w) = popCount w ∧ popCount (permuteInverse t w) = popCount w) ∧
    (∀ a b : Word, permute t (a ^^^ b) = permute t a ^^^ permute t b ∧
      permuteInverse t (a ^^^ b) = permuteInverse t a ^^^ permuteInverse t b) ∧
    (∀ p : Fin 32, permute t (BitVec.twoPow 32 p.val) = BitVec.twoPow 32 (t.perm[p]).val ∧
      permuteInverse t (BitVec.twoPow 32 p.val) = BitVec.twoPow 32 ((inverseTable t.perm)[p]).val)

/-- R71, R73: the inverse of a table without repeats undoes it in both orders and has no repeats itself. -/
def Obligations.InverseTablesInvert : Prop :=
  ∀ (n : Nat) (t : Table n), t.toList.Nodup →
    (∀ x : Fin n, (inverseTable t)[t[x]] = x ∧ t[(inverseTable t)[x]] = x) ∧ (inverseTable t).toList.Nodup

/-- R87: raw tables become a configuration exactly when both have the right number of entries, all in range, none repeated; the
configuration then holds those entries and its tables are bijections. -/
def Obligations.NonBijectiveTablesAreRefused : Prop :=
  ∀ sb pm : List Nat,
    ((∃ t, Tables.build sb pm = some t) ↔
      (sb.length = 16 ∧ (∀ x ∈ sb, x < 16) ∧ sb.Nodup) ∧ (pm.length = 32 ∧ (∀ x ∈ pm, x < 32) ∧ pm.Nodup)) ∧
    (∀ t, Tables.build sb pm = some t →
      t.wf = true ∧ t.sbox.toList.map Fin.val = sb ∧ t.perm.toList.map Fin.val = pm)

/-- 42_round_function.md R107: one round in each direction undoes the other for the same subkey. -/
def Obligations.RoundsUndoEachOther : Prop :=
  ∀ t : Tables, t.wf = true → ∀ w sk : Word,
    roundInv t (roundFwd t w sk) sk = w ∧ roundFwd t (roundInv t w sk) sk = w

/-- Values of 95_test_vectors.md under its EXAMPLE tables `T_AFF` (sections 3.4 to 3.6), which are not the hardware's. -/
def Obligations.AffineTableVectors : Prop :=
  substitute Tables.tAff 0x12345678 = 0xC3A18F6D ∧ substituteInverse Tables.tAff 0x12345678 = 0x4B2907E5 ∧
  permute Tables.tAff 0x12345678 = 0xB0A59283 ∧ permuteInverse Tables.tAff 0x12345678 = 0x6C20E4A9 ∧
  roundFwd Tables.tAff 0xDEADBEEF 0x18FED87A = 0x001BE1C9 ∧ roundInv Tables.tAff 0x001BE1C9 0x18FED87A = 0xDEADBEEF ∧
  encryptWord Tables.tAff (generateSubkeys 0x12345678) 0x00000000 = 0xFD0721C1 ∧
  decryptWord Tables.tAff (generateSubkeys 0xDEADBEEF) 0xFFFFFFFF = 0xB35A2584

/-! ### Blocks and bytes -/

/-- 20_memory.md R34: big-endian packing, and unpacking is its inverse. -/
def Obligations.BlocksAreBigEndian : Prop :=
  (∀ b0 b1 b2 b3 : Byte,
    (packBe b0 b1 b2 b3).toNat = b0.toNat * 2 ^ 24 + b1.toNat * 2 ^ 16 + b2.toNat * 2 ^ 8 + b3.toNat ∧
    unpackBe (packBe b0 b1 b2 b3) = [b0, b1, b2, b3]) ∧
  ∀ w : Word, ∃ b0 b1 b2 b3 : Byte, unpackBe w = [b0, b1, b2, b3] ∧ packBe b0 b1 b2 b3 = w

/-- R35: padding with `LEN` 1 to 4 keeps the first `LEN` bytes of the block and makes the others zero. -/
def Obligations.PaddingZeroesTheLowBytes : Prop :=
  (∀ (data : Word) (len : BitVec 3), 1 ≤ len.toNat → len.toNat ≤ 4 →
    unpackBe (padded data len) = (unpackBe data).take len.toNat ++ List.replicate (4 - len.toNat) 0) ∧
  padMask 1 = 0xFF000000 ∧ padMask 2 = 0xFFFF0000 ∧ padMask 3 = 0xFFFFFF00 ∧ padMask 4 = 0xFFFFFFFF

/-- 20_memory.md R47, R48, 43_block_cipher.md R118 (the source's round trip, 95_test_vectors.md S5, S6): for every pair of bijective
tables, every key and every file that does not end in a zero byte, packing its chunks, encrypting and decrypting each word,
unpacking and stripping the trailing zero bytes gives the file back. -/
def Obligations.FileRoundTrip : Prop :=
  ∀ t : Tables, t.wf = true → ∀ (k : Word) (plain : List Byte), plain.getLast? ≠ some 0 →
    let sk := generateSubkeys k
    let cipher := (chunks plain).map fun c => encryptWord t sk (padded (blockOfBytes c) (BitVec.ofNat 3 c.length))
    (resultBytes cipher).length % 4 = 0 ∧ stripTrailingZeros (resultBytes (cipher.map (decryptWord t sk))) = plain

/-- Lines of 95_test_vectors.md section 3.3 ("Assembler") with the words 30_encoding.md R61, R62 give them. -/
def Obligations.AssemblerLines : Prop :=
  assembleLine "ENC 0x41420000, 2".toList = some [0x2241420000] ∧ assembleLine "DEC 0x58BEE376".toList = some [0x3458BEE376] ∧
  assembleLine "RDSK 2 ; read".toList = some [0x5000000002] ∧ assembleLine "ENCB 0x48, 0x69".toList = some [0x2248690000] ∧
  assembleLine "REKEY 0x00000001".toList = some [0x4000000000, 0x1000000001] ∧ assembleLine "RDSK 3".toList = none

/-! ### The port and the engine, clock edge by clock edge -/

/-- 10_state.md R21, 20_memory.md R30: the status port is `{FLT, DV, KV, BUSY}`, `dout` is `DOUT`, `cmd_ready` is `BUSY = 0 and
rst = 0`, and a shown response is on the response port. -/
def Obligations.PortsShowTheState : Prop :=
  ∀ (s : State) (rst : Bool),
    let o := portOutputs rst s
    o.status.getLsbD 0 = s.busy ∧ o.status.getLsbD 1 = s.kv ∧ o.status.getLsbD 2 = s.dv ∧
    o.status.extractLsb' 3 3 = s.flt ∧ o.dout = s.dout ∧ (o.cmdReady = true ↔ s.busy = false ∧ rst = false) ∧
    (∀ r, s.rsp = some r → rst = false → o.rspValid = true ∧ o.rspWord = rspWord r) ∧
    (s.rsp = none → o.rspValid = false)

/-- 20_memory.md R31: at an edge with `cmd_valid = 1` an idle core takes the word whole and becomes busy, and no element a host
can observe changes but `BUSY`; a word presented to a busy core has no effect of any kind. -/
def Obligations.AcceptanceTakesTheWord : Prop :=
  (∀ (s : State) (cw : CmdWord), s.busy = false →
    ∃ t, clockEdge true cw s = .next t ∧ t.busy = true ∧ t.accepted = cw ∧ 1 ≤ t.due ∧ t.rsp = none ∧
      SameVisible s t ∧ t.host = s.host) ∧
  (∀ (s : State) (valid : Bool) (cw : CmdWord), s.busy = true → clockEdge valid cw s = clockEdge false 0 s)

/-- R32, 43_block_cipher.md R123: at an edge before the commit edge nothing a host can observe changes, no response is shown, and
the command in progress stays. -/
def Obligations.BusyEdgesAreSilent : Prop :=
  ∀ (s : State) (valid : Bool) (cw : CmdWord), s.busy = true → 2 ≤ s.due →
    ∃ t, clockEdge valid cw s = .next t ∧ SameVisible s t ∧ t.busy = true ∧ t.rsp = none ∧ t.accepted = s.accepted ∧
      t.due + 1 = s.due ∧ t.host = s.host

/-- 43_block_cipher.md R121, from the start step of R120: the engine uses `SK[0]`, `SK[1]`, `SK[2]` forward and `SK[2]`, `SK[1]`,
`SK[0]` in reverse, one round a step; `RND` is 0, 1, 2 or 2, 1, 0 and stays after the last step. -/
def Obligations.EngineCountsTheSubkeys : Prop :=
  ∀ (t : Tables) (s : State) (p : Word),
    (let a := startBlock false p s
     let b := roundStep t a
     let c := roundStep t b
     let d := roundStep t c
     a.w = p ∧ a.rnd = 0 ∧ b.w = roundFwd t p s.sk0 ∧ b.rnd = 1 ∧ c.w = roundFwd t b.w s.sk1 ∧ c.rnd = 2 ∧
     d.w = roundFwd t c.w s.sk2 ∧ d.rnd = 2) ∧
    (let a := startBlock true p s
     let b := roundStep t a
     let c := roundStep t b
     let d := roundStep t c
     a.w = p ∧ a.rnd = 2 ∧ b.w = roundInv t p s.sk2 ∧ b.rnd = 1 ∧ c.w = roundInv t b.w s.sk1 ∧ c.rnd = 0 ∧
     d.w = roundInv t c.w s.sk0 ∧ d.rnd = 0)

/-- 43_block_cipher.md R119, R122: in either direction, however many of the round steps before the last were taken before the
commit (the engine's pace is the model's free value, log entry 4), the commit leaves the state after the third round step, with
`W` copied into `DOUT`. -/
def Obligations.EngineCommitCopiesTheLastRound : Prop :=
  ∀ (t : Tables) (s : State) (p : Word) (dir : Bool) (n : Nat),
    let d := roundStep t (roundStep t (roundStep t (startBlock dir p s)))
    finishBlock t (roundsBeforeLast t n (startBlock dir p s)) = { d with
      dout := d.w, dv := true, busy := false, accepted := 0, due := 0, rsp := some ⟨.ok, d.w⟩ }

/-- 43_block_cipher.md R128, 20_memory.md R32, R33, 70_reset_and_hazards.md R178: a command run clock edge by clock edge, whatever its
latency and whenever the engine takes its round steps, ends after finitely many edges in the very state the whole transaction
gives (but for the model's own count of edges), and until then nothing a host can observe changes. -/
def Obligations.EdgeByEdgeIsTheTransaction : Prop :=
  ∀ (s : State) (cw : CmdWord), s.busy = false →
    ∃ (n : Nat) (t u : State), Sys2Proof.core.run (n + 2) { s with host := [.edge true cw] } = .next t ∧
      step { s with host := [.command cw] } = .next u ∧ t = { u with tick := t.tick } ∧
      ∀ m ≤ n, ∃ v : State, Sys2Proof.core.run (m + 1) { s with host := [.edge true cw] } = .next v ∧
        SameVisible s v ∧ v.busy = true ∧ v.rsp = none

/-- R128, R122: in every state that meets the invariants, the commit edge of a busy core gives the state the whole transaction
of its accepted word gives. -/
def Obligations.CommitEdgeIsTheTransaction : Prop :=
  ∀ (s : State) (valid : Bool) (cw : CmdWord), Inv s → s.busy = true → s.due = 1 →
    ∃ t u : State, clockEdge valid cw s = .next t ∧ transaction s.accepted s = .next u ∧ t = { u with tick := t.tick }

/-- 20_memory.md R31, R33, 70_reset_and_hazards.md R171, R178: a busy core ends its command after exactly the edges still due, the
word the host holds meanwhile is neither taken nor lost, and the response is then shown. -/
def Obligations.HeldWordWaitsForTheCommit : Prop :=
  ∀ (s : State) (cw : CmdWord) (rest : List HostEvent), s.host = .command cw :: rest → s.busy = true → 1 ≤ s.due →
    ∃ t : State, Sys2Proof.core.run s.due s = .next t ∧ t.busy = false ∧ t.host = s.host ∧ t.rsp.isSome = true

/-! ### Invariants and whole-machine rules -/

/-- 10_state.md R26, R19, 43_block_cipher.md R121: the invariants hold after reset. The port's clause rests on the values 0 of
`accepted` and `due` at reset, which are the model's choice (log entries 3 and 7). -/
def Obligations.ResetMeetsTheInvariants : Prop := Inv State.reset

/-- R26 with the port's and the engine's invariants: every step from every state that meets them, whatever the host does, gives a
state that meets them. The clauses about the accepted word, the edges due and the engine's pace are about the model's own fields
(log entries 3, 4 and 7). -/
def Obligations.StepKeepsTheInvariants : Prop := ∀ s t : State, Inv s → step s = .next t → Inv t

/-- 10_state.md R12, R25: a step that changes the key material is a reset, or executes `KEYLD` or `CLR`. -/
def Obligations.OnlyKeyldClrAndResetChangeTheKey : Prop :=
  ∀ s t : State, step s = .next t → (t.sk0, t.sk1, t.sk2, t.kv) ≠ (s.sk0, s.sk1, s.sk2, s.kv) →
    (∃ rest, s.host = .reset :: rest) ∨
    ∃ cw i, (i = .clr ∨ ∃ k, i = .keyld k) ∧ decode cw = .ok i ∧
      ((s.busy = true ∧ s.due ≤ 1 ∧ cw = s.accepted) ∨ (s.busy = false ∧ ∃ rest, s.host = .command cw :: rest))

/-- 10_state.md R14, 20_memory.md R32: `DOUT`, `DV` and `FLT` change only in a step that shows a response, or by reset. -/
def Obligations.ResultsChangeOnlyAtACommit : Prop :=
  ∀ s t : State, step s = .next t → (t.dout, t.dv, t.flt) ≠ (s.dout, s.dv, s.flt) →
    (∃ rest, s.host = .reset :: rest) ∨ (t.rsp.isSome = true ∧ t.busy = false)

end
end

