-- ==== Sys2Proof/Laws/Config.lean ====
section
/-! SUPPORT. The open tables are bijections, whatever permutations they are (40_sbox_perm_units.md R70, R72). -/

namespace Sys2Proof

theorem ofFn_perm_nodup {n : Nat} (p : Equiv.Perm (Fin n)) : (Vector.ofFn fun x => p x).toList.Nodup := by
  rw [Vector.toList_ofFn]
  exact List.nodup_ofFn.mpr p.injective

/-- The configuration the machine runs with is one R87 accepts. -/
theorem Config.tables_wf : Config.tables.wf = true := by
  rw [Tables.wf, Bool.and_eq_true]
  exact ⟨decide_eq_true (ofFn_perm_nodup Config.sboxOrder), decide_eq_true (ofFn_perm_nodup Config.permOrder)⟩

theorem Tables.wf_sbox {t : Tables} (h : t.wf = true) : t.sbox.toList.Nodup := by
  simp only [Tables.wf, Bool.and_eq_true, decide_eq_true_eq] at h
  exact h.1

theorem Tables.wf_perm {t : Tables} (h : t.wf = true) : t.perm.toList.Nodup := by
  simp only [Tables.wf, Bool.and_eq_true, decide_eq_true_eq] at h
  exact h.2

/-- A table without repeats sends different indices to different entries. -/
theorem Table.get_injective {n : Nat} {t : Table n} (h : t.toList.Nodup) : Function.Injective fun x : Fin n => (t[x] : Fin n) := by
  intro x y hxy
  have hx : x.val < t.toList.length := by simp
  have hy : y.val < t.toList.length := by simp
  refine Fin.ext ((h.getElem_inj_iff (hi := hx) (hj := hy)).mp ?_)
  simpa using hxy

end Sys2Proof
end

