-- ==== Sys2Proof/Laws/Decode.lean ====
section
/-! SUPPORT. The fields of a packed command word, and the packed word of a word's fields (30_encoding.md R50). -/

namespace Sys2Proof

@[simp] theorem cwOp_pack (op : BitVec 4) (z : BitVec 1) (len : BitVec 3) (d : Word) : cwOp (cwPack op z len d) = op := by
  apply BitVec.eq_of_getLsbD_eq
  intro i hi
  simp only [cwOp, cwPack, BitVec.getLsbD_extractLsb', BitVec.getLsbD_append]
  grind

@[simp] theorem cwZ_pack (op : BitVec 4) (z : BitVec 1) (len : BitVec 3) (d : Word) : cwZ (cwPack op z len d) = z := by
  apply BitVec.eq_of_getLsbD_eq
  intro i hi
  simp only [cwZ, cwPack, BitVec.getLsbD_extractLsb', BitVec.getLsbD_append]
  grind

@[simp] theorem cwLen_pack (op : BitVec 4) (z : BitVec 1) (len : BitVec 3) (d : Word) : cwLen (cwPack op z len d) = len := by
  apply BitVec.eq_of_getLsbD_eq
  intro i hi
  simp only [cwLen, cwPack, BitVec.getLsbD_extractLsb', BitVec.getLsbD_append]
  grind

@[simp] theorem cwData_pack (op : BitVec 4) (z : BitVec 1) (len : BitVec 3) (d : Word) : cwData (cwPack op z len d) = d := by
  apply BitVec.eq_of_getLsbD_eq
  intro i hi
  simp only [cwData, cwPack, BitVec.getLsbD_extractLsb', BitVec.getLsbD_append]
  grind

/-- A word is its four fields. -/
theorem cwPack_fields (cw : CmdWord) : cwPack (cwOp cw) (cwZ cw) (cwLen cw) (cwData cw) = cw := by
  apply BitVec.eq_of_getLsbD_eq
  intro i hi
  simp only [cwPack, cwOp, cwZ, cwLen, cwData, BitVec.getLsbD_append, BitVec.getLsbD_extractLsb']
  grind

/-- Decoding a packed word reads its fields. -/
theorem decode_pack (op : BitVec 4) (len : BitVec 3) (d : Word) : decode (cwPack op 0 len d) = decodeOp op len d := by
  simp [decode]

end Sys2Proof
end

