-- ==== Sys2Proof/Laws/State.lean ====
section
/-! SUPPORT. What each state update leaves in each field: one lemma a field and update, so that no proof unfolds a record
update. -/

namespace Sys2Proof.Machine

@[simp] theorem respond_sk0 (st : Status) (d : Word) (s : State) : (respond st d s).sk0 = s.sk0 := rfl
@[simp] theorem respond_sk1 (st : Status) (d : Word) (s : State) : (respond st d s).sk1 = s.sk1 := rfl
@[simp] theorem respond_sk2 (st : Status) (d : Word) (s : State) : (respond st d s).sk2 = s.sk2 := rfl
@[simp] theorem respond_kv (st : Status) (d : Word) (s : State) : (respond st d s).kv = s.kv := rfl
@[simp] theorem respond_dout (st : Status) (d : Word) (s : State) : (respond st d s).dout = s.dout := rfl
@[simp] theorem respond_dv (st : Status) (d : Word) (s : State) : (respond st d s).dv = s.dv := rfl
@[simp] theorem respond_flt (st : Status) (d : Word) (s : State) : (respond st d s).flt = s.flt := rfl
@[simp] theorem respond_w (st : Status) (d : Word) (s : State) : (respond st d s).w = s.w := rfl
@[simp] theorem respond_rnd (st : Status) (d : Word) (s : State) : (respond st d s).rnd = s.rnd := rfl
@[simp] theorem respond_dir (st : Status) (d : Word) (s : State) : (respond st d s).dir = s.dir := rfl
@[simp] theorem respond_busy (st : Status) (d : Word) (s : State) : (respond st d s).busy = false := rfl
@[simp] theorem respond_accepted (st : Status) (d : Word) (s : State) : (respond st d s).accepted = 0 := rfl
@[simp] theorem respond_due (st : Status) (d : Word) (s : State) : (respond st d s).due = 0 := rfl
@[simp] theorem respond_rsp (st : Status) (d : Word) (s : State) : (respond st d s).rsp = some ⟨st, d⟩ := rfl
@[simp] theorem respond_tick (st : Status) (d : Word) (s : State) : (respond st d s).tick = s.tick := rfl
@[simp] theorem respond_host (st : Status) (d : Word) (s : State) : (respond st d s).host = s.host := rfl

@[simp] theorem commitResult_sk0 (r : Word) (s : State) : (commitResult r s).sk0 = s.sk0 := rfl
@[simp] theorem commitResult_sk1 (r : Word) (s : State) : (commitResult r s).sk1 = s.sk1 := rfl
@[simp] theorem commitResult_sk2 (r : Word) (s : State) : (commitResult r s).sk2 = s.sk2 := rfl
@[simp] theorem commitResult_kv (r : Word) (s : State) : (commitResult r s).kv = s.kv := rfl
@[simp] theorem commitResult_dout (r : Word) (s : State) : (commitResult r s).dout = r := rfl
@[simp] theorem commitResult_dv (r : Word) (s : State) : (commitResult r s).dv = true := rfl
@[simp] theorem commitResult_flt (r : Word) (s : State) : (commitResult r s).flt = s.flt := rfl
@[simp] theorem commitResult_w (r : Word) (s : State) : (commitResult r s).w = s.w := rfl
@[simp] theorem commitResult_rnd (r : Word) (s : State) : (commitResult r s).rnd = s.rnd := rfl
@[simp] theorem commitResult_dir (r : Word) (s : State) : (commitResult r s).dir = s.dir := rfl
@[simp] theorem commitResult_busy (r : Word) (s : State) : (commitResult r s).busy = false := rfl
@[simp] theorem commitResult_accepted (r : Word) (s : State) : (commitResult r s).accepted = 0 := rfl
@[simp] theorem commitResult_due (r : Word) (s : State) : (commitResult r s).due = 0 := rfl
@[simp] theorem commitResult_rsp (r : Word) (s : State) : (commitResult r s).rsp = some ⟨.ok, r⟩ := rfl
@[simp] theorem commitResult_tick (r : Word) (s : State) : (commitResult r s).tick = s.tick := rfl
@[simp] theorem commitResult_host (r : Word) (s : State) : (commitResult r s).host = s.host := rfl

@[simp] theorem raiseFault_sk0 (code : FaultCode) (s : State) : (raiseFault code s).sk0 = s.sk0 := rfl
@[simp] theorem raiseFault_sk1 (code : FaultCode) (s : State) : (raiseFault code s).sk1 = s.sk1 := rfl
@[simp] theorem raiseFault_sk2 (code : FaultCode) (s : State) : (raiseFault code s).sk2 = s.sk2 := rfl
@[simp] theorem raiseFault_kv (code : FaultCode) (s : State) : (raiseFault code s).kv = s.kv := rfl
@[simp] theorem raiseFault_dout (code : FaultCode) (s : State) : (raiseFault code s).dout = 0 := rfl
@[simp] theorem raiseFault_dv (code : FaultCode) (s : State) : (raiseFault code s).dv = false := rfl
@[simp] theorem raiseFault_flt (code : FaultCode) (s : State) : (raiseFault code s).flt = faultBits code := rfl
@[simp] theorem raiseFault_w (code : FaultCode) (s : State) : (raiseFault code s).w = s.w := rfl
@[simp] theorem raiseFault_rnd (code : FaultCode) (s : State) : (raiseFault code s).rnd = s.rnd := rfl
@[simp] theorem raiseFault_dir (code : FaultCode) (s : State) : (raiseFault code s).dir = s.dir := rfl
@[simp] theorem raiseFault_busy (code : FaultCode) (s : State) : (raiseFault code s).busy = false := rfl
@[simp] theorem raiseFault_accepted (code : FaultCode) (s : State) : (raiseFault code s).accepted = 0 := rfl
@[simp] theorem raiseFault_due (code : FaultCode) (s : State) : (raiseFault code s).due = 0 := rfl
@[simp] theorem raiseFault_rsp (code : FaultCode) (s : State) : (raiseFault code s).rsp = some ⟨.fault code, 0⟩ := rfl
@[simp] theorem raiseFault_tick (code : FaultCode) (s : State) : (raiseFault code s).tick = s.tick := rfl
@[simp] theorem raiseFault_host (code : FaultCode) (s : State) : (raiseFault code s).host = s.host := rfl

@[simp] theorem answerLocked_sk0 (s : State) : (answerLocked s).sk0 = s.sk0 := rfl
@[simp] theorem answerLocked_sk1 (s : State) : (answerLocked s).sk1 = s.sk1 := rfl
@[simp] theorem answerLocked_sk2 (s : State) : (answerLocked s).sk2 = s.sk2 := rfl
@[simp] theorem answerLocked_kv (s : State) : (answerLocked s).kv = s.kv := rfl
@[simp] theorem answerLocked_dout (s : State) : (answerLocked s).dout = s.dout := rfl
@[simp] theorem answerLocked_dv (s : State) : (answerLocked s).dv = s.dv := rfl
@[simp] theorem answerLocked_flt (s : State) : (answerLocked s).flt = s.flt := rfl
@[simp] theorem answerLocked_w (s : State) : (answerLocked s).w = s.w := rfl
@[simp] theorem answerLocked_rnd (s : State) : (answerLocked s).rnd = s.rnd := rfl
@[simp] theorem answerLocked_dir (s : State) : (answerLocked s).dir = s.dir := rfl
@[simp] theorem answerLocked_busy (s : State) : (answerLocked s).busy = false := rfl
@[simp] theorem answerLocked_accepted (s : State) : (answerLocked s).accepted = 0 := rfl
@[simp] theorem answerLocked_due (s : State) : (answerLocked s).due = 0 := rfl
@[simp] theorem answerLocked_rsp (s : State) : (answerLocked s).rsp = some ⟨.locked, 0⟩ := rfl
@[simp] theorem answerLocked_tick (s : State) : (answerLocked s).tick = s.tick := rfl
@[simp] theorem answerLocked_host (s : State) : (answerLocked s).host = s.host := rfl

@[simp] theorem writeSubkeys_sk0 (sk : Fin 3 → Word) (s : State) : (writeSubkeys sk s).sk0 = sk 0 := rfl
@[simp] theorem writeSubkeys_sk1 (sk : Fin 3 → Word) (s : State) : (writeSubkeys sk s).sk1 = sk 1 := rfl
@[simp] theorem writeSubkeys_sk2 (sk : Fin 3 → Word) (s : State) : (writeSubkeys sk s).sk2 = sk 2 := rfl
@[simp] theorem writeSubkeys_kv (sk : Fin 3 → Word) (s : State) : (writeSubkeys sk s).kv = true := rfl
@[simp] theorem writeSubkeys_dout (sk : Fin 3 → Word) (s : State) : (writeSubkeys sk s).dout = s.dout := rfl
@[simp] theorem writeSubkeys_dv (sk : Fin 3 → Word) (s : State) : (writeSubkeys sk s).dv = s.dv := rfl
@[simp] theorem writeSubkeys_flt (sk : Fin 3 → Word) (s : State) : (writeSubkeys sk s).flt = s.flt := rfl
@[simp] theorem writeSubkeys_w (sk : Fin 3 → Word) (s : State) : (writeSubkeys sk s).w = s.w := rfl
@[simp] theorem writeSubkeys_rnd (sk : Fin 3 → Word) (s : State) : (writeSubkeys sk s).rnd = s.rnd := rfl
@[simp] theorem writeSubkeys_dir (sk : Fin 3 → Word) (s : State) : (writeSubkeys sk s).dir = s.dir := rfl
@[simp] theorem writeSubkeys_busy (sk : Fin 3 → Word) (s : State) : (writeSubkeys sk s).busy = s.busy := rfl
@[simp] theorem writeSubkeys_accepted (sk : Fin 3 → Word) (s : State) : (writeSubkeys sk s).accepted = s.accepted := rfl
@[simp] theorem writeSubkeys_due (sk : Fin 3 → Word) (s : State) : (writeSubkeys sk s).due = s.due := rfl
@[simp] theorem writeSubkeys_rsp (sk : Fin 3 → Word) (s : State) : (writeSubkeys sk s).rsp = s.rsp := rfl
@[simp] theorem writeSubkeys_tick (sk : Fin 3 → Word) (s : State) : (writeSubkeys sk s).tick = s.tick := rfl
@[simp] theorem writeSubkeys_host (sk : Fin 3 → Word) (s : State) : (writeSubkeys sk s).host = s.host := rfl

@[simp] theorem clearSession_sk0 (s : State) : (clearSession s).sk0 = 0 := rfl
@[simp] theorem clearSession_sk1 (s : State) : (clearSession s).sk1 = 0 := rfl
@[simp] theorem clearSession_sk2 (s : State) : (clearSession s).sk2 = 0 := rfl
@[simp] theorem clearSession_kv (s : State) : (clearSession s).kv = false := rfl
@[simp] theorem clearSession_dout (s : State) : (clearSession s).dout = 0 := rfl
@[simp] theorem clearSession_dv (s : State) : (clearSession s).dv = false := rfl
@[simp] theorem clearSession_flt (s : State) : (clearSession s).flt = 0 := rfl
@[simp] theorem clearSession_w (s : State) : (clearSession s).w = 0 := rfl
@[simp] theorem clearSession_rnd (s : State) : (clearSession s).rnd = 0 := rfl
@[simp] theorem clearSession_dir (s : State) : (clearSession s).dir = false := rfl
@[simp] theorem clearSession_busy (s : State) : (clearSession s).busy = false := rfl
@[simp] theorem clearSession_accepted (s : State) : (clearSession s).accepted = 0 := rfl
@[simp] theorem clearSession_due (s : State) : (clearSession s).due = 0 := rfl
@[simp] theorem clearSession_rsp (s : State) : (clearSession s).rsp = some ⟨.ok, 0⟩ := rfl
@[simp] theorem clearSession_tick (s : State) : (clearSession s).tick = s.tick := rfl
@[simp] theorem clearSession_host (s : State) : (clearSession s).host = s.host := rfl

@[simp] theorem resetCore_sk0 (s : State) : (resetCore s).sk0 = 0 := rfl
@[simp] theorem resetCore_sk1 (s : State) : (resetCore s).sk1 = 0 := rfl
@[simp] theorem resetCore_sk2 (s : State) : (resetCore s).sk2 = 0 := rfl
@[simp] theorem resetCore_kv (s : State) : (resetCore s).kv = false := rfl
@[simp] theorem resetCore_dout (s : State) : (resetCore s).dout = 0 := rfl
@[simp] theorem resetCore_dv (s : State) : (resetCore s).dv = false := rfl
@[simp] theorem resetCore_flt (s : State) : (resetCore s).flt = 0 := rfl
@[simp] theorem resetCore_w (s : State) : (resetCore s).w = 0 := rfl
@[simp] theorem resetCore_rnd (s : State) : (resetCore s).rnd = 0 := rfl
@[simp] theorem resetCore_dir (s : State) : (resetCore s).dir = false := rfl
@[simp] theorem resetCore_busy (s : State) : (resetCore s).busy = false := rfl
@[simp] theorem resetCore_accepted (s : State) : (resetCore s).accepted = 0 := rfl
@[simp] theorem resetCore_due (s : State) : (resetCore s).due = 0 := rfl
@[simp] theorem resetCore_rsp (s : State) : (resetCore s).rsp = none := rfl
@[simp] theorem resetCore_tick (s : State) : (resetCore s).tick = s.tick + 1 := rfl
@[simp] theorem resetCore_host (s : State) : (resetCore s).host = s.host := rfl

@[simp] theorem startBlock_sk0 (dir : Bool) (p : Word) (s : State) : (startBlock dir p s).sk0 = s.sk0 := rfl
@[simp] theorem startBlock_sk1 (dir : Bool) (p : Word) (s : State) : (startBlock dir p s).sk1 = s.sk1 := rfl
@[simp] theorem startBlock_sk2 (dir : Bool) (p : Word) (s : State) : (startBlock dir p s).sk2 = s.sk2 := rfl
@[simp] theorem startBlock_kv (dir : Bool) (p : Word) (s : State) : (startBlock dir p s).kv = s.kv := rfl
@[simp] theorem startBlock_dout (dir : Bool) (p : Word) (s : State) : (startBlock dir p s).dout = s.dout := rfl
@[simp] theorem startBlock_dv (dir : Bool) (p : Word) (s : State) : (startBlock dir p s).dv = s.dv := rfl
@[simp] theorem startBlock_flt (dir : Bool) (p : Word) (s : State) : (startBlock dir p s).flt = s.flt := rfl
@[simp] theorem startBlock_w (dir : Bool) (p : Word) (s : State) : (startBlock dir p s).w = p := rfl
@[simp] theorem startBlock_rnd (dir : Bool) (p : Word) (s : State) : (startBlock dir p s).rnd = if dir then 2 else 0 := rfl
@[simp] theorem startBlock_dir (dir : Bool) (p : Word) (s : State) : (startBlock dir p s).dir = dir := rfl
@[simp] theorem startBlock_busy (dir : Bool) (p : Word) (s : State) : (startBlock dir p s).busy = s.busy := rfl
@[simp] theorem startBlock_accepted (dir : Bool) (p : Word) (s : State) : (startBlock dir p s).accepted = s.accepted := rfl
@[simp] theorem startBlock_due (dir : Bool) (p : Word) (s : State) : (startBlock dir p s).due = s.due := rfl
@[simp] theorem startBlock_rsp (dir : Bool) (p : Word) (s : State) : (startBlock dir p s).rsp = s.rsp := rfl
@[simp] theorem startBlock_tick (dir : Bool) (p : Word) (s : State) : (startBlock dir p s).tick = s.tick := rfl
@[simp] theorem startBlock_host (dir : Bool) (p : Word) (s : State) : (startBlock dir p s).host = s.host := rfl

@[simp] theorem roundStep_sk0 (t : Tables) (s : State) : (roundStep t s).sk0 = s.sk0 := rfl
@[simp] theorem roundStep_sk1 (t : Tables) (s : State) : (roundStep t s).sk1 = s.sk1 := rfl
@[simp] theorem roundStep_sk2 (t : Tables) (s : State) : (roundStep t s).sk2 = s.sk2 := rfl
@[simp] theorem roundStep_kv (t : Tables) (s : State) : (roundStep t s).kv = s.kv := rfl
@[simp] theorem roundStep_dout (t : Tables) (s : State) : (roundStep t s).dout = s.dout := rfl
@[simp] theorem roundStep_dv (t : Tables) (s : State) : (roundStep t s).dv = s.dv := rfl
@[simp] theorem roundStep_flt (t : Tables) (s : State) : (roundStep t s).flt = s.flt := rfl
@[simp] theorem roundStep_w (t : Tables) (s : State) : (roundStep t s).w = roundUnit t s.w (subkeys s s.rnd) s.dir := rfl
@[simp] theorem roundStep_rnd (t : Tables) (s : State) : (roundStep t s).rnd = if isLastRound s then s.rnd else if s.dir then s.rnd - 1 else s.rnd + 1 := rfl
@[simp] theorem roundStep_dir (t : Tables) (s : State) : (roundStep t s).dir = s.dir := rfl
@[simp] theorem roundStep_busy (t : Tables) (s : State) : (roundStep t s).busy = s.busy := rfl
@[simp] theorem roundStep_accepted (t : Tables) (s : State) : (roundStep t s).accepted = s.accepted := rfl
@[simp] theorem roundStep_due (t : Tables) (s : State) : (roundStep t s).due = s.due := rfl
@[simp] theorem roundStep_rsp (t : Tables) (s : State) : (roundStep t s).rsp = s.rsp := rfl
@[simp] theorem roundStep_tick (t : Tables) (s : State) : (roundStep t s).tick = s.tick := rfl
@[simp] theorem roundStep_host (t : Tables) (s : State) : (roundStep t s).host = s.host := rfl

@[simp] theorem beginCommand_sk0 (cw : CmdWord) (s : State) : (beginCommand cw s).sk0 = s.sk0 := rfl
@[simp] theorem beginCommand_sk1 (cw : CmdWord) (s : State) : (beginCommand cw s).sk1 = s.sk1 := rfl
@[simp] theorem beginCommand_sk2 (cw : CmdWord) (s : State) : (beginCommand cw s).sk2 = s.sk2 := rfl
@[simp] theorem beginCommand_kv (cw : CmdWord) (s : State) : (beginCommand cw s).kv = s.kv := rfl
@[simp] theorem beginCommand_dout (cw : CmdWord) (s : State) : (beginCommand cw s).dout = s.dout := rfl
@[simp] theorem beginCommand_dv (cw : CmdWord) (s : State) : (beginCommand cw s).dv = s.dv := rfl
@[simp] theorem beginCommand_flt (cw : CmdWord) (s : State) : (beginCommand cw s).flt = s.flt := rfl
@[simp] theorem beginCommand_w (cw : CmdWord) (s : State) : (beginCommand cw s).w = s.w := rfl
@[simp] theorem beginCommand_rnd (cw : CmdWord) (s : State) : (beginCommand cw s).rnd = s.rnd := rfl
@[simp] theorem beginCommand_dir (cw : CmdWord) (s : State) : (beginCommand cw s).dir = s.dir := rfl
@[simp] theorem beginCommand_busy (cw : CmdWord) (s : State) : (beginCommand cw s).busy = true := rfl
@[simp] theorem beginCommand_accepted (cw : CmdWord) (s : State) : (beginCommand cw s).accepted = cw := rfl
@[simp] theorem beginCommand_due (cw : CmdWord) (s : State) : (beginCommand cw s).due = 1 + Config.extraEdges s.tick cw s.sk0 s.sk1 s.sk2 := rfl
@[simp] theorem beginCommand_rsp (cw : CmdWord) (s : State) : (beginCommand cw s).rsp = s.rsp := rfl
@[simp] theorem beginCommand_tick (cw : CmdWord) (s : State) : (beginCommand cw s).tick = s.tick := rfl
@[simp] theorem beginCommand_host (cw : CmdWord) (s : State) : (beginCommand cw s).host = s.host := rfl

end Sys2Proof.Machine
end

