-- ==== Sys2Proof/Laws/Ops.lean ====
section
/-! SUPPORT. What the shared operations can do, once each: the execution procedure (60_exceptions.md R145) by its inversion and
by one equation a line, every command by the effect it can have, and the subkey file under the updates. -/

namespace Sys2Proof.Machine

/-- The subkey file depends on the three registers only. -/
theorem subkeys_congr {s t : State} (h0 : t.sk0 = s.sk0) (h1 : t.sk1 = s.sk1) (h2 : t.sk2 = s.sk2) : subkeys t = subkeys s := by
  funext i
  fin_cases i
  · exact h0
  · exact h1
  · exact h2

@[simp] theorem subkeys_writeSubkeys (sk : Fin 3 → Word) (s : State) : subkeys (writeSubkeys sk s) = sk := by
  funext i
  fin_cases i <;> rfl

@[simp] theorem isLocked_iff (s : State) : isLocked s = true ↔ s.flt ≠ 0 := by simp [isLocked]

@[simp] theorem isLocked_false_iff (s : State) : isLocked s = false ↔ s.flt = 0 := by simp [isLocked]

/-- Everything the execution procedure can do. -/
theorem runChecked_cases {legal needsKey short : Bool} {run : State → State} {s t : State}
    (h : runChecked legal needsKey short run s = .next t) :
    (s.flt ≠ 0 ∧ t = answerLocked s) ∨
    (s.flt = 0 ∧ legal = false ∧ t = raiseFault .illegal s) ∨
    (s.flt = 0 ∧ legal = true ∧ needsKey = true ∧ s.kv = false ∧ t = raiseFault .nokey s) ∨
    (s.flt = 0 ∧ legal = true ∧ (needsKey = true → s.kv = true) ∧ short = true ∧ t = raiseFault .shortblk s) ∨
    (s.flt = 0 ∧ legal = true ∧ (needsKey = true → s.kv = true) ∧ short = false ∧ t = run s) := by
  unfold runChecked at h
  split at h
  · exact .inl ⟨(isLocked_iff s).mp ‹_›, by injection h with h; exact h.symm⟩
  · have hl : s.flt = 0 := by simpa using ‹¬isLocked s = true›
    split at h
    · exact .inr (.inl ⟨hl, by simpa using ‹(!legal) = true›, by injection h with h; exact h.symm⟩)
    · have hg : legal = true := by simpa using ‹¬(!legal) = true›
      split at h
      · rename_i hk
        simp only [Bool.and_eq_true, Bool.not_eq_true'] at hk
        exact .inr (.inr (.inl ⟨hl, hg, hk.1, hk.2, by injection h with h; exact h.symm⟩))
      · rename_i hk
        have hk' : needsKey = true → s.kv = true := by simpa using hk
        split at h
        · exact .inr (.inr (.inr (.inl ⟨hl, hg, hk', ‹_›, by injection h with h; exact h.symm⟩)))
        · exact .inr (.inr (.inr (.inr ⟨hl, hg, hk', by simpa using ‹¬short = true›, by injection h with h; exact h.symm⟩)))

/-- The same, by its three kinds of answer: LOCKED, a fault entry, or the command's own rule with its conditions met. -/
theorem runChecked_answers {legal needsKey short : Bool} {run : State → State} {s t : State}
    (h : runChecked legal needsKey short run s = .next t) :
    (s.flt ≠ 0 ∧ t = answerLocked s) ∨ (s.flt = 0 ∧ ∃ code, t = raiseFault code s) ∨
    (s.flt = 0 ∧ legal = true ∧ (needsKey = true → s.kv = true) ∧ short = false ∧ t = run s) := by
  rcases runChecked_cases h with ⟨a, b⟩ | ⟨a, _, c⟩ | ⟨a, _, _, _, c⟩ | ⟨a, _, _, _, c⟩ | c
  · exact .inl ⟨a, b⟩
  · exact .inr (.inl ⟨a, _, c⟩)
  · exact .inr (.inl ⟨a, _, c⟩)
  · exact .inr (.inl ⟨a, _, c⟩)
  · exact .inr (.inr c)

/-- The execution procedure always answers a next state (70_reset_and_hazards.md R178). -/
theorem runChecked_next (legal needsKey short : Bool) (run : State → State) (s : State) :
    ∃ t, runChecked legal needsKey short run s = .next t := by
  unfold runChecked
  repeat' split
  all_goals exact ⟨_, rfl⟩

/-- Line 2: a locked core answers LOCKED. -/
theorem runChecked_locked {s : State} (h : s.flt ≠ 0) (legal needsKey short : Bool) (run : State → State) :
    runChecked legal needsKey short run s = .next (answerLocked s) := by
  rw [runChecked, if_pos ((isLocked_iff s).mpr h)]

/-- Line 3: an illegal word raises ILLEGAL. -/
theorem runChecked_illegal {s : State} (h : s.flt = 0) (needsKey short : Bool) (run : State → State) :
    runChecked false needsKey short run s = .next (raiseFault .illegal s) := by
  simp [runChecked, isLocked, h]

/-- Line 4: a command that needs a key raises NOKEY without one. -/
theorem runChecked_nokey {s : State} (h : s.flt = 0) (hk : s.kv = false) (short : Bool) (run : State → State) :
    runChecked true true short run s = .next (raiseFault .nokey s) := by
  simp [runChecked, isLocked, h, hk]

/-- Line 5: a short ciphertext block raises SHORTBLK. -/
theorem runChecked_short {s : State} (h : s.flt = 0) (hk : s.kv = true) (needsKey : Bool) (run : State → State) :
    runChecked true needsKey true run s = .next (raiseFault .shortblk s) := by
  simp [runChecked, isLocked, h, hk]

/-- Line 6: otherwise the command's own rule. -/
theorem runChecked_run {s : State} (h : s.flt = 0) {needsKey : Bool} (hk : needsKey = true → s.kv = true) (run : State → State) :
    runChecked true needsKey false run s = .next (run s) := by
  cases needsKey <;> simp_all [runChecked, isLocked]

/-- The subkey register a legal index names. -/
theorem subkeyIndex_cases (index : BitVec 2) :
    (WellFormed.indexLegal index = true ∧ ∃ i : Fin 3, subkeyIndex index = some i ∧ i.val = index.toNat) ∨
    (WellFormed.indexLegal index = false ∧ subkeyIndex index = none) := by
  revert index
  decide

end Sys2Proof.Machine
end

