-- ==== Sys2Proof/Laws/Engine.lean ====
section
/-! SUPPORT. The engine (43_block_cipher.md R119 to R122): its steps touch `W` and `RND` only, they compose, and the commit does
not depend on how many of them were taken before it. -/

namespace Sys2Proof.Machine

/-- Round steps before the last one write `W` and `RND` and nothing else. -/
theorem roundsBeforeLast_frame (t : Tables) : ∀ (n : Nat) (s : State),
    roundsBeforeLast t n s = { s with w := (roundsBeforeLast t n s).w, rnd := (roundsBeforeLast t n s).rnd }
  | 0, _ => rfl
  | n + 1, s => by
    by_cases h : isLastRound s = true
    · simp [roundsBeforeLast, h]
    · simp only [roundsBeforeLast, if_neg h]
      rw [roundsBeforeLast_frame t n (roundStep t s)]
      rfl

@[simp] theorem subkeys_roundStep (t : Tables) (s : State) : subkeys (roundStep t s) = subkeys s := rfl

@[simp] theorem subkeys_startBlock (dir : Bool) (p : Word) (s : State) : subkeys (startBlock dir p s) = subkeys s := rfl

/-- At the last round step nothing before it is left to do. -/
theorem roundsBeforeLast_last {t : Tables} {s : State} (h : isLastRound s = true) (n : Nat) : roundsBeforeLast t n s = s := by
  cases n with
  | zero => rfl
  | succ n => simp [roundsBeforeLast, h]

/-- Round steps compose. -/
theorem roundsBeforeLast_add (t : Tables) (m : Nat) : ∀ (n : Nat) (s : State),
    roundsBeforeLast t m (roundsBeforeLast t n s) = roundsBeforeLast t (n + m) s
  | 0, s => by simp [roundsBeforeLast]
  | n + 1, s => by
    by_cases h : isLastRound s = true
    · rw [roundsBeforeLast_last h, roundsBeforeLast_last h, roundsBeforeLast_last h]
    · rw [show n + 1 + m = (n + m) + 1 by omega]
      simp only [roundsBeforeLast, if_neg h]
      exact roundsBeforeLast_add t m n _

/-- Two round steps reach the last one, whatever `RND` is: it counts 0, 1, 2 or 2, 1, 0 (R121). -/
theorem isLastRound_after_two (t : Tables) (s : State) : isLastRound (roundsBeforeLast t 2 s) = true := by
  have key : ∀ (dir : Bool) (rnd : Fin 3) (s : State), s.dir = dir → s.rnd = rnd →
      isLastRound (roundsBeforeLast t 2 s) = true := by
    intro dir rnd s hd hr
    cases dir <;> fin_cases rnd <;> simp_all [roundsBeforeLast, isLastRound, roundStep]
  exact key _ _ s rfl rfl

/-- However many round steps were taken before, the commit gives the same state (R119, R122). -/
theorem finishBlock_rounds (t : Tables) (n : Nat) (s : State) : finishBlock t (roundsBeforeLast t n s) = finishBlock t s := by
  have h : roundsBeforeLast t 2 (roundsBeforeLast t n s) = roundsBeforeLast t 2 s := by
    rw [roundsBeforeLast_add, show n + 2 = 2 + n by omega, ← roundsBeforeLast_add,
      roundsBeforeLast_last (isLastRound_after_two t s)]
  simp only [finishBlock, h]

/-- The engine run forward from its start step computes `encrypt_word` and leaves `RND` = 2 (R115, R121, R122). -/
theorem finishBlock_forward (t : Tables) (p : Word) (s : State) :
    finishBlock t (startBlock false p s) =
      commitResult (encryptWord t (subkeys s) p) { s with w := encryptWord t (subkeys s) p, dir := false, rnd := 2 } := by
  rfl

/-- The engine run in reverse computes `decrypt_word` and leaves `RND` = 0 (R116, R121, R122). -/
theorem finishBlock_reverse (t : Tables) (p : Word) (s : State) :
    finishBlock t (startBlock true p s) =
      commitResult (decryptWord t (subkeys s) p) { s with w := decryptWord t (subkeys s) p, dir := true, rnd := 0 } := by
  simp [finishBlock, roundsBeforeLast, isLastRound, roundStep, startBlock, decryptWord, commitResult, respond, roundUnit, subkeys]

/-- Round steps look at the subkeys, `W`, `RND` and `DIR` only. -/
theorem roundsBeforeLast_congr (t : Tables) : ∀ (n : Nat) (a b : State), subkeys a = subkeys b → a.w = b.w → a.rnd = b.rnd → a.dir = b.dir →
    (roundsBeforeLast t n a).w = (roundsBeforeLast t n b).w ∧ (roundsBeforeLast t n a).rnd = (roundsBeforeLast t n b).rnd
  | 0, _, _, _, h1, h2, _ => ⟨h1, h2⟩
  | n + 1, a, b, h0, h1, h2, h3 => by
    have hl : isLastRound a = isLastRound b := by simp [isLastRound, h2, h3]
    by_cases h : isLastRound a = true
    · rw [roundsBeforeLast_last h, roundsBeforeLast_last (hl ▸ h)]
      exact ⟨h1, h2⟩
    · simp only [roundsBeforeLast, if_neg h, if_neg (hl ▸ h)]
      exact roundsBeforeLast_congr t n _ _ (by simpa using h0) (by simp [h0, h1, h2, h3]) (by simp [hl, h2, h3]) h3

/-- The commit of a block operation writes `DOUT`, `DV`, `W` and `RND`, ends the command and shows a response. -/
theorem finishBlock_frame (t : Tables) (s : State) :
    ∃ w rnd, finishBlock t s = commitResult w { s with w := w, rnd := rnd } := by
  refine ⟨(finishBlock t s).w, (finishBlock t s).rnd, ?_⟩
  simp only [finishBlock, commitResult, respond, roundStep]
  rw [roundsBeforeLast_frame]

end Sys2Proof.Machine
end

