-- ==== Sys2Proof/Laws/PerInstr.lean ====
section
/-! SUPPORT. Per command: the fields of its encoded word (30_encoding.md R50, R52, R54 to R56). -/

namespace Sys2Proof.Laws.Fields

/-- The encoded word of a command carries its opcode, a zero reserved bit, its length and its data. -/
def Statement (i : Instr) : Prop :=
  cwOp (encode i) = opOf i ∧ cwZ (encode i) = 0 ∧ cwLen (encode i) = lenOf i ∧ cwData (encode i) = dataOf i

theorem nop : Statement .nop := by simp [Statement, encode]
theorem keyld (key : Word) : Statement (.keyld key) := by simp [Statement, encode]
theorem enc (data : Word) (len : BitVec 3) : Statement (.enc data len) := by simp [Statement, encode]
theorem dec (data : Word) (len : BitVec 3) : Statement (.dec data len) := by simp [Statement, encode]
theorem clr : Statement .clr := by simp [Statement, encode]
theorem rdsk (index : BitVec 2) : Statement (.rdsk index) := by simp [Statement, encode]
theorem sub (data : Word) : Statement (.sub data) := by simp [Statement, encode]
theorem isub (data : Word) : Statement (.isub data) := by simp [Statement, encode]
theorem prm (data : Word) : Statement (.prm data) := by simp [Statement, encode]
theorem iprm (data : Word) : Statement (.iprm data) := by simp [Statement, encode]

end Sys2Proof.Laws.Fields
end

