-- ==== Sys2Proof/Laws/Units.lean ====
section
/-! SUPPORT. What the leaf units compute, once: nibble by nibble (40_sbox_perm_units.md R75 to R77), bit by bit (R78, R79), and
the inverse tables (R71, R73). -/

namespace Sys2Proof.Machine

/-- Nibble `k` of the word built from the nibbles `f` is `f k` (R75). -/
@[simp] theorem nib_ofNibbles (f : Fin 8 → Nibble) (k : Fin 8) : nib (ofNibbles f) k = f k := by
  apply BitVec.eq_of_getLsbD_eq
  intro i hi
  fin_cases k <;> simp only [nib, ofNibbles, BitVec.getLsbD_extractLsb', BitVec.getLsbD_append] <;> grind

/-- Two words with the same nibbles are the same word. -/
theorem word_ext_nib {a b : Word} (h : ∀ k, nib a k = nib b k) : a = b := by
  apply BitVec.eq_of_getLsbD_eq
  intro i hi
  have hk := congrArg (fun n : Nibble => n.getLsbD (i % 4)) (h ⟨i / 4, by omega⟩)
  have hm : i % 4 < 4 := Nat.mod_lt _ (by decide)
  have hi' : 4 * (i / 4) + i % 4 = i := Nat.div_add_mod i 4
  simpa [nib, BitVec.getLsbD_extractLsb', hm, hi'] using hk

/-- Writing entry by entry: after the fold the entry at `key x` is `x`, if no later index has the same key. -/
theorem getElem_foldl_set {n : Nat} (key : Fin n → Fin n) (hk : Function.Injective key) (x : Fin n) :
    ∀ (l : List (Fin n)) (v : Table n), (x ∈ l ∨ v[key x] = x) →
      (l.foldl (fun (inv : Table n) y => inv.set (key y) y) v)[key x] = x
  | [], v, h => by simpa using h
  | y :: l, v, h => by
    refine getElem_foldl_set key hk x l _ ?_
    by_cases hxy : y = x
    · subst hxy; right; simp
    · rcases h with h | h
      · left; simpa [Ne.symm hxy] using h
      · right
        have : (key y).val ≠ (key x).val := fun e => hxy (hk (Fin.ext e))
        simpa [Vector.getElem_set_ne, this] using h

/-- The inverse table undoes the table (R71, R73). -/
theorem inverseTable_get {n : Nat} {t : Table n} (h : t.toList.Nodup) (x : Fin n) : (inverseTable t)[t[x]] = x :=
  getElem_foldl_set (fun y => t[y]) (Table.get_injective h) x _ _ (Or.inl (List.mem_finRange x))

/-- The S-box unit undoes itself under the inverse select (R74, R71). -/
theorem isboxAt_sboxAt {t : Tables} (h : t.wf = true) (x : Nibble) : isboxAt t (sboxAt t x) = x := by
  have := inverseTable_get (Tables.wf_sbox h) x.toFin
  simp only [isboxAt, sboxAt]
  exact congrArg BitVec.ofFin this

/-- Every nibble is the S-box's image of its inverse image: `SBOX` is a bijection (R70, R71). -/
theorem sboxAt_isboxAt {t : Tables} (h : t.wf = true) (y : Nibble) : sboxAt t (isboxAt t y) = y := by
  have hinj : Function.Injective (sboxAt t) := Function.LeftInverse.injective (isboxAt_sboxAt h)
  have hsurj : Function.Surjective (sboxAt t) := Finite.surjective_of_injective hinj
  obtain ⟨x, rfl⟩ := hsurj y
  rw [isboxAt_sboxAt h]

@[simp] theorem nib_substitute (t : Tables) (w : Word) (k : Fin 8) : nib (substitute t w) k = sboxAt t (nib w k) := by
  simp [substitute, sboxUnit]

@[simp] theorem nib_substituteInverse (t : Tables) (w : Word) (k : Fin 8) :
    nib (substituteInverse t w) k = isboxAt t (nib w k) := by
  simp [substituteInverse, sboxUnit]

/-- `out[d] <- b` writes bit `d` and leaves the others. -/
theorem getLsbD_setBit (out : Word) (d : Fin 32) (b : Bool) (i : Fin 32) :
    (setBit out d b).getLsbD i = if i = d then b else out.getLsbD i := by
  have hi := i.isLt
  by_cases h : i = d
  · subst h
    cases b <;> simp [setBit]
  · have h' : (d : Nat) ≠ i := fun e => h (Fin.ext e.symm)
    cases b <;> simp [setBit, h, Ne.symm h']

/-- Writing bit by bit: after the fold bit `dst x` is `bit x`, if no other index writes there. -/
theorem getLsbD_foldl_setBit (dst : Fin 32 → Fin 32) (bit : Fin 32 → Bool) (hd : Function.Injective dst) (x : Fin 32) :
    ∀ (l : List (Fin 32)) (out : Word), (x ∈ l ∨ out.getLsbD (dst x) = bit x) →
      (l.foldl (fun out y => setBit out (dst y) (bit y)) out).getLsbD (dst x) = bit x
  | [], _, h => by simpa using h
  | y :: l, out, h => by
    refine getLsbD_foldl_setBit dst bit hd x l _ ?_
    by_cases hxy : y = x
    · subst hxy; right; exact (getLsbD_setBit out _ _ _).trans (if_pos rfl)
    · rcases h with h | h
      · left; simpa [Ne.symm hxy] using h
      · right
        rw [getLsbD_setBit, if_neg (fun e => hxy (hd e.symm))]
        exact h

/-- Bit `s` of the input goes to bit `PERM[s]` of the output (R78). -/
theorem getLsbD_permute {t : Tables} (h : t.wf = true) (w : Word) (s : Fin 32) :
    (permute t w).getLsbD (t.perm[s] : Fin 32) = w.getLsbD s :=
  getLsbD_foldl_setBit (fun y => t.perm[y]) (fun y => w.getLsbD y) (Table.get_injective (Tables.wf_perm h)) s _ _
    (Or.inl (List.mem_finRange s))

/-- Bit `s` of the output is bit `PERM[s]` of the input (R79). -/
theorem getLsbD_permuteInverse (t : Tables) (w : Word) (s : Fin 32) :
    (permuteInverse t w).getLsbD s = w.getLsbD (t.perm[s] : Fin 32) :=
  getLsbD_foldl_setBit (fun y => y) (fun y => w.getLsbD (t.perm[y] : Fin 32)) Function.injective_id s _ _
    (Or.inl (List.mem_finRange s))

/-- Every bit position is some source's destination: `PERM` is a bijection (R72). -/
theorem perm_surjective {t : Tables} (h : t.wf = true) : Function.Surjective fun s : Fin 32 => (t.perm[s] : Fin 32) :=
  Finite.surjective_of_injective (Table.get_injective (Tables.wf_perm h))

end Sys2Proof.Machine
end

