-- ==== Sys2Proof/Laws/Port.lean ====
section
/-! SUPPORT. What a command, a transaction, a clock edge and a step can do, once each; the invariants and the frames are derived
from these. -/

namespace Sys2Proof.Machine

/-- The commands whose own rule writes the result register and nothing else (20_memory.md R37). -/
def WritesResultOnly (i : Instr) : Prop :=
  (∃ x, i = .rdsk x) ∨ (∃ d, i = .sub d) ∨ (∃ d, i = .isub d) ∨ (∃ d, i = .prm d) ∨ ∃ d, i = .iprm d

/-- Everything a command can do: the four answers of R145 lines 1 to 5, or one of the commands' own rules (line 6). -/
theorem exec_cases {i : Instr} {s t : State} (h : exec i s = .next t) :
    (s.flt ≠ 0 ∧ i ≠ .clr ∧ t = answerLocked s) ∨
    (i = .clr ∧ t = clearSession s) ∨
    (s.flt = 0 ∧ ∃ code, t = raiseFault code s) ∨
    (s.flt = 0 ∧ i = .nop ∧ t = respond .ok 0 s) ∨
    (s.flt = 0 ∧ ∃ key, i = .keyld key ∧ t = loadKey key s) ∨
    (s.flt = 0 ∧ s.kv = true ∧ ∃ data len, i = .enc data len ∧ WellFormed.lenLegal len = true ∧ t = encryptBlock Config.tables data len s) ∨
    (s.flt = 0 ∧ s.kv = true ∧ ∃ data, i = .dec data 4 ∧ t = decryptBlock Config.tables data s) ∨
    (s.flt = 0 ∧ WritesResultOnly i ∧ ∃ r, t = commitResult r s) := by
  cases i with
  | clr =>
    injection h with h
    exact .inr (.inl ⟨rfl, h.symm⟩)
  | nop =>
    rcases runChecked_answers h with ⟨a, b⟩ | c | ⟨a, _, _, _, c⟩
    · exact .inl ⟨a, by simp, b⟩
    · exact .inr (.inr (.inl c))
    · exact .inr (.inr (.inr (.inl ⟨a, rfl, c⟩)))
  | keyld key =>
    rcases runChecked_answers h with ⟨a, b⟩ | c | ⟨a, _, _, _, c⟩
    · exact .inl ⟨a, by simp, b⟩
    · exact .inr (.inr (.inl c))
    · exact .inr (.inr (.inr (.inr (.inl ⟨a, key, rfl, c⟩))))
  | enc data len =>
    rcases runChecked_answers h with ⟨a, b⟩ | c | ⟨a, hl, hk, _, c⟩
    · exact .inl ⟨a, by simp, b⟩
    · exact .inr (.inr (.inl c))
    · exact .inr (.inr (.inr (.inr (.inr (.inl ⟨a, hk rfl, data, len, rfl, hl, c⟩)))))
  | dec data len =>
    rcases runChecked_answers h with ⟨a, b⟩ | c | ⟨a, _, hk, d, c⟩
    · exact .inl ⟨a, by simp, b⟩
    · exact .inr (.inr (.inl c))
    · obtain rfl : len = 4 := by simpa using d
      exact .inr (.inr (.inr (.inr (.inr (.inr (.inl ⟨a, hk rfl, data, rfl, c⟩))))))
  | rdsk index =>
    have h' : execRdsk index s = .next t := h
    unfold execRdsk at h'
    split at h'
    · rcases runChecked_answers h' with ⟨a, b⟩ | c | ⟨a, _, _, _, c⟩
      · exact .inl ⟨a, by simp, b⟩
      · exact .inr (.inr (.inl c))
      · exact .inr (.inr (.inr (.inr (.inr (.inr (.inr ⟨a, by simp [WritesResultOnly], _, c⟩))))))
    · rcases runChecked_answers h' with ⟨a, b⟩ | c | ⟨_, hl, _⟩
      · exact .inl ⟨a, by simp, b⟩
      · exact .inr (.inr (.inl c))
      · cases hl
  | sub data =>
    rcases runChecked_answers h with ⟨a, b⟩ | c | ⟨a, _, _, _, c⟩
    · exact .inl ⟨a, by simp, b⟩
    · exact .inr (.inr (.inl c))
    · exact .inr (.inr (.inr (.inr (.inr (.inr (.inr ⟨a, by simp [WritesResultOnly], _, c⟩))))))
  | isub data =>
    rcases runChecked_answers h with ⟨a, b⟩ | c | ⟨a, _, _, _, c⟩
    · exact .inl ⟨a, by simp, b⟩
    · exact .inr (.inr (.inl c))
    · exact .inr (.inr (.inr (.inr (.inr (.inr (.inr ⟨a, by simp [WritesResultOnly], _, c⟩))))))
  | prm data =>
    rcases runChecked_answers h with ⟨a, b⟩ | c | ⟨a, _, _, _, c⟩
    · exact .inl ⟨a, by simp, b⟩
    · exact .inr (.inr (.inl c))
    · exact .inr (.inr (.inr (.inr (.inr (.inr (.inr ⟨a, by simp [WritesResultOnly], _, c⟩))))))
  | iprm data =>
    rcases runChecked_answers h with ⟨a, b⟩ | c | ⟨a, _, _, _, c⟩
    · exact .inl ⟨a, by simp, b⟩
    · exact .inr (.inr (.inl c))
    · exact .inr (.inr (.inr (.inr (.inr (.inr (.inr ⟨a, by simp [WritesResultOnly], _, c⟩))))))

/-- Everything an illegal word can do. -/
theorem execIllegal_cases {s t : State} (h : execIllegal s = .next t) :
    (s.flt ≠ 0 ∧ t = answerLocked s) ∨ (s.flt = 0 ∧ t = raiseFault .illegal s) := by
  rcases runChecked_cases h with a | ⟨a, _, c⟩ | ⟨_, b, _⟩ | ⟨_, b, _⟩ | ⟨_, b, _⟩
  · exact .inl a
  · exact .inr ⟨a, c⟩
  all_goals cases b

/-- A command always answers a next state. -/
theorem exec_next (i : Instr) (s : State) : ∃ t, exec i s = .next t := by
  cases i with
  | clr => exact ⟨_, rfl⟩
  | rdsk index =>
    have : ∃ t, execRdsk index s = .next t := by
      unfold execRdsk
      split
      · exact runChecked_next _ _ _ _ _
      · exact runChecked_next _ _ _ _ _
    exact this
  | nop => exact runChecked_next _ _ _ _ _
  | keyld key => exact runChecked_next _ _ _ _ _
  | enc data len => exact runChecked_next _ _ _ _ _
  | dec data len => exact runChecked_next _ _ _ _ _
  | sub data => exact runChecked_next _ _ _ _ _
  | isub data => exact runChecked_next _ _ _ _ _
  | prm data => exact runChecked_next _ _ _ _ _
  | iprm data => exact runChecked_next _ _ _ _ _

/-- A command word always answers a next state. -/
theorem transaction_next (cw : CmdWord) (s : State) : ∃ t, transaction cw s = .next t := by
  unfold transaction
  split
  · exact exec_next _ _
  · exact runChecked_next _ _ _ _ _

/-- A command word executed whole is its command, or the illegal word's answer. -/
theorem transaction_cases {cw : CmdWord} {s t : State} (h : transaction cw s = .next t) :
    (∃ i, decode cw = .ok i ∧ exec i s = .next t) ∨ (∃ r, decode cw = .error r ∧ execIllegal s = .next t) := by
  unfold transaction at h
  split at h
  · exact .inl ⟨_, ‹_›, h⟩
  · exact .inr ⟨_, ‹_›, h⟩

/-- Everything a clock edge with `rst = 0` can do; `s'` is the state with the response gone and the counter one further. -/
theorem clockEdge_cases {valid : Bool} {cw : CmdWord} {s t : State} (h : clockEdge valid cw s = .next t) :
    let s' := { s with rsp := none, tick := s.tick + 1 }
    (s.busy = true ∧ s.due ≤ 1 ∧ engineRunning s' = true ∧ t = finishBlock Config.tables s') ∨
    (s.busy = true ∧ s.due ≤ 1 ∧ engineRunning s' = false ∧ transaction s.accepted s' = .next t) ∨
    (s.busy = true ∧ 1 < s.due ∧ t = waitEdge s') ∨
    (s.busy = false ∧ valid = true ∧ t = acceptWord cw s') ∨
    (s.busy = false ∧ valid = false ∧ t = s') := by
  unfold clockEdge at h
  split at h
  · split at h
    · unfold commitWord at h
      split at h
      · exact .inl ⟨‹_›, ‹_›, ‹_›, by injection h with h; exact h.symm⟩
      · exact .inr (.inl ⟨‹_›, ‹_›, (Bool.not_eq_true _).mp ‹_›, h⟩)
    · exact .inr (.inr (.inl ⟨‹_›, by omega, by injection h with h; exact h.symm⟩))
  · have hb : s.busy = false := by simpa using ‹¬s.busy = true›
    split at h
    · exact .inr (.inr (.inr (.inl ⟨hb, ‹_›, by injection h with h; exact h.symm⟩)))
    · exact .inr (.inr (.inr (.inr ⟨hb, by simpa using ‹¬valid = true›, by injection h with h; exact h.symm⟩)))

/-- Everything a step can do, by the host's next event. -/
theorem step_cases {s t : State} (h : step s = .next t) :
    (s.host = [] ∧ clockEdge false 0 s = .next t) ∨
    (∃ cw rest, s.host = .command cw :: rest ∧ s.busy = true ∧ clockEdge true cw s = .next t) ∨
    (∃ cw rest, s.host = .command cw :: rest ∧ s.busy = false ∧ transaction cw { s with host := rest } = .next t) ∨
    (∃ valid cw rest, s.host = .edge valid cw :: rest ∧ clockEdge valid cw { s with host := rest } = .next t) ∨
    (∃ rest, s.host = .reset :: rest ∧ t = resetCore { s with host := rest }) := by
  unfold step runHost at h
  split at h
  · exact .inl ⟨‹_›, h⟩
  · split at h
    · exact .inr (.inl ⟨_, _, ‹_›, ‹_›, h⟩)
    · exact .inr (.inr (.inl ⟨_, _, ‹_›, by simpa using ‹¬s.busy = true›, h⟩))
  · exact .inr (.inr (.inr (.inl ⟨_, _, _, ‹_›, h⟩)))
  · exact .inr (.inr (.inr (.inr ⟨_, ‹_›, by injection h with h; exact h.symm⟩)))

/-- What a command word executed whole never touches, and how it ends: the core idle, a response shown. -/
theorem transaction_ends {cw : CmdWord} {s t : State} (h : transaction cw s = .next t) :
    t.busy = false ∧ t.accepted = 0 ∧ t.due = 0 ∧ t.rsp.isSome = true ∧ t.tick = s.tick ∧ t.host = s.host := by
  rcases transaction_cases h with ⟨i, _, h⟩ | ⟨_, _, h⟩
  · rcases exec_cases h with ⟨_, _, rfl⟩ | ⟨_, rfl⟩ | ⟨_, _, rfl⟩ | ⟨_, _, rfl⟩ | ⟨_, _, _, rfl⟩ | ⟨_, _, _, _, _, _, rfl⟩ |
      ⟨_, _, _, _, rfl⟩ | ⟨_, _, _, rfl⟩ <;> exact ⟨rfl, rfl, rfl, rfl, rfl, rfl⟩
  · rcases execIllegal_cases h with ⟨_, rfl⟩ | ⟨_, rfl⟩ <;> exact ⟨rfl, rfl, rfl, rfl, rfl, rfl⟩

/-- Acceptance writes `BUSY`, the accepted word, the edges due, and, for a block operation that starts, the engine's
registers. -/
theorem acceptWord_frame (cw : CmdWord) (s : State) :
    ∃ w rnd dir, acceptWord cw s = { beginCommand cw s with w := w, rnd := rnd, dir := dir } := by
  refine ⟨(acceptWord cw s).w, (acceptWord cw s).rnd, (acceptWord cw s).dir, ?_⟩
  unfold acceptWord
  split
  · split
    · rename_i i _ _
      cases i <;> rfl
    · rfl
  · rfl

/-- An edge before the commit writes `W`, `RND` and the edges due. -/
theorem waitEdge_frame (s : State) : ∃ w rnd, waitEdge s = { s with w := w, rnd := rnd, due := s.due - 1 } := by
  refine ⟨(waitEdge s).w, (waitEdge s).rnd, ?_⟩
  unfold waitEdge
  split
  · rw [roundsBeforeLast_frame]
  · rfl

/-- The engine runs only on an unlocked core with a key (43_block_cipher.md R123). -/
theorem startsEngine_unlocked {i : Instr} {s : State} (h : startsEngine i s = true) : s.flt = 0 ∧ s.kv = true := by
  cases i with
  | enc _ len =>
    simp only [startsEngine, Bool.and_eq_true, Bool.not_eq_true', isLocked_false_iff] at h
    exact ⟨h.1.1, h.2⟩
  | dec _ len =>
    simp only [startsEngine, Bool.and_eq_true, Bool.not_eq_true', isLocked_false_iff] at h
    exact ⟨h.1.1.1, h.1.2⟩
  | _ => cases h

end Sys2Proof.Machine
end

