-- ==== Sys2Proof/Laws/Step.lean ====
section
/-! SUPPORT. Runs of several steps, one step at a time; every step gives a next state. -/

namespace Sys2Proof.Machine

/-- A clock edge always answers a next state. -/
theorem clockEdge_next (valid : Bool) (cw : CmdWord) (s : State) : ∃ t, clockEdge valid cw s = .next t := by
  unfold clockEdge commitWord
  repeat' split
  all_goals first | exact ⟨_, rfl⟩ | exact transaction_next _ _

/-- A run of any core, its first step apart. -/
theorem run_step_of {M : Host.Core} {n : Nat} {s t : M.State} (h : M.step s = .next t) : M.run (n + 1) s = M.run n t := by
  simp only [Host.Core.run, h]

/-- A run of this core, its first step apart. -/
theorem core_run_step {n : Nat} {s t : State} (h : step s = .next t) : Sys2Proof.core.run (n + 1) s = Sys2Proof.core.run n t :=
  run_step_of (M := Sys2Proof.core) h

/-- No step, no change. -/
theorem core_run_zero (s : State) : Sys2Proof.core.run 0 s = .next s := rfl

end Sys2Proof.Machine
end

