-- ==== Sys2Proof/Tests/Slice0.lean ====
section
/-! SUPPORT. Tests of the model against spec/95_test_vectors.md, one step each, and for every statement with hypotheses a
witness that meets them. -/

namespace Sys2Proof.Tests

open Sys2Proof Sys2Proof.Machine

/-- The state a step answers with, if it goes on. -/
def after (o : Host.Outcome State Fault Refusal) : Option State :=
  match o with
  | .next t => some t
  | .fault _ => none
  | .refused _ => none

/-- The response a step shows, as its 35 bits. -/
def answer (o : Host.Outcome State Fault Refusal) : Option RspWord := (after o).bind fun t => t.rsp.map rspWord

/-- After reset and `KEYLD 0x12345678`: the subkeys of section 3.1. -/
def keyed : State := { State.reset with sk0 := 0x81CD0955, sk1 := 0xED74FC44, sk2 := 0x34071667, kv := true }

/-- The same core with a result in `DOUT`. -/
def withResult : State := { keyed with dout := 0x58BEE376, dv := true }

/-- The same core locked by SHORTBLK. -/
def locked : State := { keyed with flt := 3 }

/-- A core with `cw` in progress and `due` edges to go. -/
def inProgress (cw : CmdWord) (due : Nat) : State := { keyed with busy := true, accepted := cw, due := due }

/-! ### WellFormed: one ill-formed command for each check (30_encoding.md R54, R55) -/

theorem test_wf_enc_len_zero : (Instr.enc 0 0).wf = false := by decide
theorem test_wf_enc_len_five : (Instr.enc 0 5).wf = false := by decide
theorem test_wf_dec_len_seven : (Instr.dec 0 7).wf = false := by decide
theorem test_wf_rdsk_index_three : (Instr.rdsk 3).wf = false := by decide
theorem test_wf_bounds_are_legal : (Instr.enc 0 1).wf && (Instr.dec 0 4).wf && (Instr.rdsk 2).wf = true := by decide

/-! ### Decode: V-DEC (section 3.3), a word written out for every constructor, and what is refused -/

/-- `OP` 0x0, `Z` 0, `LEN` 0, `DATA` 0. -/
theorem test_decode_nop : decode 0b0000000000000000000000000000000000000000 = .ok .nop := by decide
/-- `OP` 0x1, `DATA` 0x12345678. -/
theorem test_decode_keyld : decode 0b0001000000010010001101000101011001111000 = .ok (.keyld 0x12345678) := by decide
/-- `OP` 0x2, `LEN` 2, `DATA` 0x4142FFFF. -/
theorem test_decode_enc : decode 0b0010001001000001010000101111111111111111 = .ok (.enc 0x4142FFFF 2) := by decide
/-- `OP` 0x3, `LEN` 4, `DATA` 0x58BEE376. -/
theorem test_decode_dec : decode 0b0011010001011000101111101110001101110110 = .ok (.dec 0x58BEE376 4) := by decide
/-- `OP` 0x4. -/
theorem test_decode_clr : decode 0b0100000000000000000000000000000000000000 = .ok .clr := by decide
/-- `OP` 0x5, index 2. -/
theorem test_decode_rdsk : decode 0b0101000000000000000000000000000000000010 = .ok (.rdsk 2) := by decide
/-- `OP` 0x8, `DATA` 0x12345678. -/
theorem test_decode_sub : decode 0b1000000000010010001101000101011001111000 = .ok (.sub 0x12345678) := by decide
/-- `OP` 0x9, `DATA` all ones. -/
theorem test_decode_isub : decode 0b1001000011111111111111111111111111111111 = .ok (.isub 0xFFFFFFFF) := by decide
/-- `OP` 0xA, `DATA` 1. -/
theorem test_decode_prm : decode 0b1010000000000000000000000000000000000001 = .ok (.prm 0x00000001) := by decide
/-- `OP` 0xB, `DATA` 0x80000000. -/
theorem test_decode_iprm : decode 0b1011000010000000000000000000000000000000 = .ok (.iprm 0x80000000) := by decide

/-- The decoder refuses the word. -/
def refused (cw : CmdWord) : Bool := (decode cw).toOption.isNone

theorem test_refused_operand_bits : ([0x0000000001, 0x0100000000, 0x1400000000, 0x4080000000, 0x5000000003, 0x5000000004,
    0x5100000000, 0x8100000000, 0x9400000000, 0xA200000001] : List CmdWord).all refused = true := by decide
theorem test_refused_lengths : ([0x2000000000, 0x2500000000, 0x2600000000, 0x2700000000, 0x3000000000, 0x3500000000,
    0x3700000000] : List CmdWord).all refused = true := by decide
theorem test_refused_z_bit : ([0x0800000000, 0x1812345678, 0x2C00000000, 0xB800000000] : List CmdWord).all refused = true := by decide
theorem test_refused_opcodes : ([0x6000000000, 0x7000000000, 0x7412345678, 0xC000000000, 0xD000000000, 0xE000000000,
    0xF000000000, 0xFFFFFFFFFF] : List CmdWord).all refused = true := by decide

/-- The opcode table's numbering: the word is the 40 bits of `CW`. -/
theorem test_decodeTableWord : decodeTableWord 40 0x2141424344 = some (.enc 0x41424344 1) := by decide
theorem test_decodeTableWord_illegal : decodeTableWord 40 0x2000000000 = none := by decide

/-! ### Operands: V-KS and V-MEM (sections 3.1, 3.2) -/

theorem test_rotl_wraps : rotl32 0x80000000 1 = 0x00000001 ∧ rotl32 0xE0000000 3 = 0x00000007 ∧ rotl32 0x00000001 31 = 0x80000000 := by
  decide
theorem test_subkeys_deadbeef : generateSubkeys 0xDEADBEEF 0 = 0x18FED87A ∧ generateSubkeys 0xDEADBEEF 1 = 0xDF135E1B ∧
    generateSubkeys 0xDEADBEEF 2 = 0x50C852D9 := by decide
theorem test_pack_first_byte_high : packBe 0x41 0x42 0x43 0x44 = 0x41424344 ∧ unpackBe 0x58BEE376 = [0x58, 0xBE, 0xE3, 0x76] := by decide
theorem test_padded : padded 0x41424344 1 = 0x41000000 ∧ padded 0x41424344 3 = 0x41424300 ∧ padded 0x00FFFFFF 1 = 0 := by decide

/-! ### Commands: V-FLT, V-CTL (sections 3.8, 3.9) and the programs of section 4, one step each -/

/-- V-FLT row 24. -/
theorem test_nop_keeps_dout : (after (exec .nop withResult)).map (·.dout) = some 0x58BEE376 := by decide
/-- V-FLT row 14. -/
theorem test_nop_locked : answer (exec .nop locked) = some 0x400000000 := by decide
/-- P1 step 1. -/
theorem test_keyld_subkeys : (after (exec (.keyld 0x12345678) State.reset)).map (fun t => (t.sk0, t.sk1, t.sk2, statusPort t)) =
    some (0x81CD0955, 0xED74FC44, 0x34071667, 0b000010) := by decide
/-- V-FLT row 25: `DOUT` survives `KEYLD`. -/
theorem test_keyld_keeps_dout : (after (exec (.keyld 0) withResult)).map (fun t => (t.sk2, t.dout, t.dv)) =
    some (0xA5A5A5A7, 0x58BEE376, true) := by decide
/-- V-FLT row 1. -/
theorem test_enc_nokey : (after (exec (.enc 0 4) State.reset)).map statusPort = some 0b010000 := by decide
/-- P2 under `T_AFF`, step 2: result, working word and round index. -/
theorem test_enc_vector : (fun t : State => (t.dout, t.w, t.rnd)) (encryptBlock Tables.tAff 0 4 keyed) = (0xFD0721C1, 0xFD0721C1, 2) := by
  decide +kernel
/-- V-FLT row 11: a short ciphertext block clears the old result. -/
theorem test_dec_short : (after (exec (.dec 0x58000000 1) withResult)).map (fun t => (t.dout, statusPort t)) =
    some (0, 0b011010) := by decide
/-- P2 under `T_AFF`, step 3. -/
theorem test_dec_vector : (fun t : State => (t.dout, t.rnd, t.dir)) (decryptBlock Tables.tAff 0xFD0721C1 keyed) = (0, 0, true) := by
  decide +kernel
/-- V-FLT row 20. -/
theorem test_clr_unlocks : (after (exec .clr locked)).map (fun t => (t.sk0, statusPort t)) = some (0, 0) := by decide
/-- V-FLT row 19: an ill-formed CLR does not unlock. -/
theorem test_clr_ill_formed : answer (transaction 0x4000000001 locked) = some 0x400000000 := by decide
/-- P1 step 4. -/
theorem test_rdsk_two : answer (exec (.rdsk 2) keyed) = some 0x034071667 := by decide
/-- V-FLT rows 3 and 7: ILLEGAL before NOKEY. -/
theorem test_rdsk_faults : answer (exec (.rdsk 0) State.reset) = some 0x200000000 ∧
    answer (transaction 0x5000000003 State.reset) = some 0x100000000 := by decide
/-- Section 3.4 under `T_AFF`: nibble `k` of the word is `k`. -/
theorem test_sub_nibbles : substitute Tables.tAff 0x76543210 = 0x6F81A3C5 := by decide +kernel
/-- `SUB` needs no key. -/
theorem test_sub_without_key : (after (exec (.sub 0) State.reset)).map statusPort = some 0b000100 := by decide
/-- Section 3.4 under `T_AFF`. -/
theorem test_isub_nibbles : substituteInverse Tables.tAff 0x00000001 = 0xDDDDDDD4 := by decide +kernel
/-- V-FLT row 18, for the inverse. -/
theorem test_isub_locked : answer (exec (.isub 0x12345678) locked) = some 0x400000000 := by decide
/-- Section 3.4 under `T_AFF`: bit 0 goes to bit 3. -/
theorem test_prm_bit : permute Tables.tAff 0x00000001 = 0x00000008 ∧ permute Tables.tAff 0x80000000 = 0x40000000 := by decide +kernel
/-- `PRM` leaves the subkeys and the engine alone. -/
theorem test_prm_frame : (after (exec (.prm 1) keyed)).map (fun t => (t.sk0, t.w, t.kv)) = some (0x81CD0955, 0, true) := by decide
/-- Section 3.4 under `T_AFF`: bit 3 comes back to bit 0. -/
theorem test_iprm_bit : permuteInverse Tables.tAff 0x00000008 = 0x00000001 ∧ permuteInverse Tables.tAff 0x80000000 = 0x00001000 := by
  decide +kernel
/-- `IPRM` needs no key. -/
theorem test_iprm_without_key : (after (exec (.iprm 0) State.reset)).map statusPort = some 0b000100 := by decide

/-! ### Steps, reset and the port -/

/-- A word placed by `withFetchWord` is the next step's. -/
theorem test_withFetchWord_runs : (after (step (State.reset.withFetchWord 40 0x1000000000))).map (·.sk1) = some 0xA5A5A5A4 := by decide
/-- V-FLT row 6. -/
theorem test_step_illegal : (after (step (State.reset.withFetchWord 40 0x6000000000))).map statusPort = some 0b001000 := by decide
/-- P7: a reset edge at the would-be commit edge abandons the command and the key. -/
theorem test_reset_mid_command : (after (step { inProgress 0x2400000000 1 with host := [.reset] })).map
    (fun t => (t.sk0, statusPort t, t.rsp)) = some (0, 0, none) := by decide
/-- 20_memory.md R31: a word presented to a busy core is not taken. -/
theorem test_busy_ignores : (after (clockEdge true 0x4000000000 (inProgress 0 2))).map (fun t => (t.accepted, t.due, t.busy)) =
    some (0, 1, true) := by decide
/-- R32: a response is shown for one cycle only. -/
theorem test_response_one_cycle : (after (clockEdge false 0 { State.reset with rsp := some ⟨.ok, 0⟩ })).map (·.rsp) = some none := by decide

/-! ### The host: V-HOST and the assembler (sections 3.3, 3.7) -/

theorem test_chunks_six_bytes : chunks [0x41, 0x42, 0x43, 0x44, 0x45, 0x46] = [[0x41, 0x42, 0x43, 0x44], [0x45, 0x46]] := by decide
/-- V-HOST-2: a genuine trailing zero is lost. -/
theorem test_strip_is_lossy : stripTrailingZeros [0x41, 0x42, 0x00, 0x00] = [0x41, 0x42] := by decide
/-- V-HOST-3: the empty file. -/
theorem test_empty_file : encryptSession 7 [] = [.keyld 7, .clr] := by decide
theorem test_assembler_keyhex : assembleLine "KEYHEX \"deadbeef\"".toList = some [0x10DEADBEEF] := by decide
theorem test_assembler_decb : assembleLine "DECB 0x58".toList = some [0x3158000000] := by decide

/-! ### Hypotheses that can be met, one theorem a statement, its clauses at the bounds of their ranges -/

theorem test_hyp_DecodeOfEncodeIsTheCommand : (Instr.enc 0 1).wf = true ∧ (Instr.dec 0 4).wf = true ∧ (Instr.rdsk 0).wf = true ∧
    (Instr.rdsk 2).wf = true := by decide
theorem test_hyp_EncodeOfDecodeIsTheWord : decode 0x2141424344 = .ok (.enc 0x41424344 1) := by decide
/-- Each clause of `IllegalWord` alone: `Z`, a reserved opcode, a length on both sides of the legal ones, and operand bits. -/
theorem test_hyp_IllegalWordsFaultOrAreLocked :
    IllegalWord 0x0800000000 ∧ IllegalWord 0x6000000000 ∧ IllegalWord 0xF000000000 ∧ IllegalWord 0x2000000000 ∧
    IllegalWord 0x3500000000 ∧ IllegalWord 0x1100000000 ∧ IllegalWord 0x4000000001 ∧ IllegalWord 0x5000000003 ∧
    ¬ IllegalWord 0x2100000000 ∧ ¬ IllegalWord 0x3400000000 ∧ ¬ IllegalWord 0x5000000002 ∧ ¬ IllegalWord 0xB000000000 ∧
    State.reset.flt = 0 ∧ locked.flt ≠ 0 := by
  refine ⟨?_, ?_, ?_, ?_, ?_, ?_, ?_, ?_, ?_, ?_, ?_, ?_, rfl, by decide⟩ <;> (simp only [IllegalWord]; decide)
theorem test_hyp_StepRunsTheDecodedCommand :
    (State.reset.withFetchWord 40 0x5000000002).host = .command 0x5000000002 :: [] ∧
    (State.reset.withFetchWord 40 0x5000000002).busy = false ∧ decode 0x5000000002 = .ok (.rdsk 2) ∧
    (State.reset.withFetchWord 40 0x5000000003).host = .command 0x5000000003 :: [] ∧ decode 0x5000000003 = .error .badData := by decide
/-- An edge event, no event, and a command held against a busy core. -/
theorem test_hyp_StepRunsTheDecodedCommand_edges :
    ({ keyed with host := [.edge true 0x5000000002] } : State).host = .edge true 0x5000000002 :: [] ∧ keyed.host = [] ∧
    ({ inProgress 0 2 with host := [.command 0x4000000000] } : State).host = .command 0x4000000000 :: [] ∧
    ({ inProgress 0 2 with host := [.command 0x4000000000] } : State).busy = true := by decide
/-- The reset state with no event, the same state with a counter and a command word on the pins, and an idle core with a result
and a response shown. -/
theorem test_hyp_ResetCoreWaits :
    let s : State := { State.reset with tick := 9, host := [.edge false 0x4000000000] }
    let r : State := { withResult with rsp := some ⟨.ok, 0x58BEE376⟩, host := [.edge false 0xFFFFFFFFFF] }
    CoreIsReset State.reset ∧ State.reset.busy = false ∧ State.reset.host = [] ∧
    CoreIsReset s ∧ s.busy = false ∧ (∃ cw rest, s.host = .edge false cw :: rest) ∧
    r.busy = false ∧ (∃ cw rest, r.host = .edge false cw :: rest) ∧ r.rsp ≠ none :=
  ⟨by unfold CoreIsReset; decide, rfl, rfl, by unfold CoreIsReset; decide, rfl, ⟨_, _, rfl⟩, rfl, ⟨_, _, rfl⟩, by decide⟩
theorem test_hyp_ResetFromAnyState : ({ inProgress 0x2400000000 3 with host := [.reset] } : State).host = .reset :: [] := by decide
theorem test_hyp_FaultPriorityAndEntry : State.reset.flt = 0 ∧ keyed.flt = 0 ∧ decode 0x6000000000 = .error .reservedOpcode ∧
    decode 0x2400000000 = .ok (.enc 0 4) ∧ NeedsKey (.enc 0 4) ∧ State.reset.kv = false ∧
    decode 0x3100000000 = .ok (.dec 0 1) ∧ ShortDec (.dec 0 1) ∧ decode 0x3300000000 = .ok (.dec 0 3) ∧ ShortDec (.dec 0 3) ∧
    keyed.kv = true ∧ decode 0x3400000000 = .ok (.dec 0 4) ∧ ¬ ShortDec (.dec 0 4) ∧ ¬ ShortDec .nop ∧
    ¬ (NeedsKey .nop ∧ State.reset.kv = false) := by
  refine ⟨rfl, rfl, by decide, by decide, .inl ⟨0, 4, rfl⟩, rfl, by decide, ⟨0, 1, rfl, by decide⟩, by decide, ⟨0, 3, rfl, by decide⟩,
    rfl, by decide, ?_, ?_, ?_⟩ <;> simp [ShortDec, NeedsKey]
theorem test_hyp_LockedCoreIgnoresOtherWords : locked.flt ≠ 0 ∧ decode 0x4000000001 ≠ .ok .clr ∧ decode 0x0000000000 ≠ .ok .clr := by decide
theorem test_hyp_LockHoldsUntilClearOrReset :
    let s : State := { locked with host := [.command 0x5000000000] }
    s.flt ≠ 0 ∧ (∀ rest, s.host ≠ .reset :: rest) ∧ (s.busy = true → decode s.accepted ≠ .ok .clr) ∧
    (s.busy = false → ∀ cw rest, s.host = .command cw :: rest → decode cw ≠ .ok .clr) ∧ ∃ t, step s = .next t := by
  refine ⟨by decide, fun _ h => (by cases h), by decide, ?_, _, rfl⟩
  intro _ cw rest h
  injection h with h _
  injection h with h
  subst h
  decide
/-- A locked core at the commit edge of a `NOP`, the host already holding `CLR`: the ordinary way out of a fault. -/
theorem test_hyp_LockHoldsUntilClearOrReset_held :
    let s : State := { locked with busy := true, accepted := 0x0000000000, due := 1, host := [.command 0x4000000000] }
    s.flt ≠ 0 ∧ (∀ rest, s.host ≠ .reset :: rest) ∧ (s.busy = true → decode s.accepted ≠ .ok .clr) ∧
    (s.busy = false → ∀ cw rest, s.host = .command cw :: rest → decode cw ≠ .ok .clr) ∧ ∃ t, step s = .next t :=
  ⟨by decide, fun _ h => (by cases h), by decide, fun h => (by cases h), _, rfl⟩
theorem test_hyp_NopOnlyResponds : withResult.flt = 0 := by decide
theorem test_hyp_KeyldStoresTheSubkeys : State.reset.flt = 0 ∧ keyed.flt = 0 := by decide
theorem test_hyp_RdskReadsTheSubkey : keyed.flt = 0 ∧ keyed.kv = true := by decide
theorem test_hyp_EncWritesTheCiphertext : keyed.flt = 0 ∧ keyed.kv = true ∧ 1 ≤ (1 : BitVec 3).toNat ∧ (1 : BitVec 3).toNat ≤ 4 ∧
    1 ≤ (4 : BitVec 3).toNat ∧ (4 : BitVec 3).toNat ≤ 4 := by decide
theorem test_hyp_DecWritesThePlaintext : keyed.flt = 0 ∧ keyed.kv = true := by decide
theorem test_hyp_SubMapsEveryNibble : State.reset.flt = 0 ∧ keyed.flt = 0 := by decide
theorem test_hyp_IsubUndoesEveryNibble : State.reset.flt = 0 ∧ withResult.flt = 0 := by decide
theorem test_hyp_PrmMovesEveryBit : State.reset.flt = 0 ∧ withResult.flt = 0 := by decide
theorem test_hyp_IprmMovesEveryBitBack : State.reset.flt = 0 ∧ keyed.flt = 0 := by decide
/-- One next state for each clause: a result command, `KEYLD`, a locked answer. -/
theorem test_hyp_CommandsKeepWhatTheyDoNotWrite :
    (∃ t, exec (.sub 0) keyed = .next t ∧ (∃ d, t.rsp = some ⟨.ok, d⟩)) ∧ (∃ t, exec (.keyld 1) withResult = .next t) ∧
    (∃ t, exec .nop withResult = .next t ∧ withResult.flt = 0) ∧ ∃ t, exec (.rdsk 0) locked = .next t :=
  ⟨⟨_, rfl, _, rfl⟩, ⟨_, rfl⟩, ⟨_, rfl, rfl⟩, _, rfl⟩
theorem test_hyp_OpcodeBitZeroIsTheDirection : startsEngine (.enc 0 1) keyed = true ∧ startsEngine (.dec 0 4) keyed = true ∧
    keyed.flt = 0 := by decide
theorem test_hyp_EncAndDecUndoEachOther : keyed.flt = 0 ∧ keyed.kv = true ∧ withResult.flt = 0 ∧ withResult.kv = true := by decide
/-- Two cores that differ in `DOUT`, `DV` and the engine, with the same subkeys. -/
theorem test_hyp_BlockResultDependsOnKeyAndOperandOnly :
    let s' : State := { withResult with w := 7, rnd := 1, dir := true }
    keyed.flt = 0 ∧ s'.flt = 0 ∧ keyed.kv = true ∧ s'.kv = true ∧ keyed.sk0 = s'.sk0 ∧ keyed.sk1 = s'.sk1 ∧ keyed.sk2 = s'.sk2 ∧
    keyed ≠ s' := by decide
theorem test_hyp_RotationMovesEveryBit : 1 ≤ 1 ∧ 1 ≤ 31 ∧ 31 ≤ 31 ∧ 31 < 32 := by decide
/-- The hypothesis of `UnitsUndoTheirInverses`, `UnitsHaveTheirStructure` and `RoundsUndoEachOther`. -/
theorem test_hyp_tables_wf : Tables.tAff.wf = true ∧ Tables.tId.wf = true := by decide
theorem test_hyp_InverseTablesInvert : Tables.tAff.sbox.toList.Nodup ∧ Tables.tAff.perm.toList.Nodup := by decide
/-- Raw tables that are accepted, and ones that are refused: an entry twice, an entry out of range, one entry too few. -/
theorem test_hyp_NonBijectiveTablesAreRefused :
    Tables.build (List.range 16) (List.range 32) = some Tables.tId ∧ Tables.build (List.replicate 16 0) (List.range 32) = none ∧
    Tables.build (List.range' 1 16) (List.range 32) = none ∧ Tables.build (List.range 16) (List.range 31) = none := by decide +kernel
theorem test_hyp_PaddingZeroesTheLowBytes : 1 ≤ (1 : BitVec 3).toNat ∧ (4 : BitVec 3).toNat ≤ 4 := by decide
/-- Files that do not end in a zero byte: V-HOST-1, a zero byte inside, the empty file. -/
theorem test_hyp_FileRoundTrip : Tables.tAff.wf = true ∧ ([0x48, 0x69] : List Byte).getLast? ≠ some 0 ∧
    ([0x41, 0x00, 0x43, 0x44, 0x45] : List Byte).getLast? ≠ some 0 ∧ ([] : List Byte).getLast? ≠ some 0 := by decide
theorem test_hyp_PortsShowTheState : ({ State.reset with rsp := some ⟨.fault .nokey, 0⟩ } : State).rsp = some ⟨.fault .nokey, 0⟩ ∧
    State.reset.rsp = none ∧ State.reset.busy = false := by decide
theorem test_hyp_AcceptanceTakesTheWord : State.reset.busy = false ∧ (inProgress 0 1).busy = true := by decide
theorem test_hyp_BusyEdgesAreSilent : (inProgress 0x2400000000 2).busy = true ∧ 2 ≤ (inProgress 0x2400000000 2).due := by decide
theorem test_hyp_EdgeByEdgeIsTheTransaction : State.reset.busy = false ∧ keyed.busy = false ∧ locked.busy = false := by decide
/-- A block operation at its commit edge, just after its start step, and a `NOP` at its. -/
theorem test_hyp_CommitEdgeIsTheTransaction :
    let s : State := inProgress 0x2400000000 1
    (Inv s ∧ s.busy = true ∧ s.due = 1) ∧ engineRunning s = true := by
  refine ⟨⟨⟨⟨fun h => (by cases h), fun _ => ⟨0x12345678, by decide⟩⟩, ⟨fun _ => rfl, fun h => absurd rfl h⟩, (by unfold FltInv; decide),
    ⟨fun h => (by cases h), fun _ => by decide⟩, ?_⟩, rfl, rfl⟩, by decide⟩
  intro _ i hd _
  have h : decode (inProgress 0x2400000000 1).accepted = .ok (.enc 0 4) := by decide
  rw [h] at hd
  injection hd with hd
  subst hd
  exact ⟨0, rfl⟩
theorem test_hyp_CommitEdgeIsTheTransaction_nop :
    let s : State := inProgress 0x0000000000 1
    Inv s ∧ s.busy = true ∧ s.due = 1 := by
  refine ⟨⟨⟨fun h => (by cases h), fun _ => ⟨0x12345678, by decide⟩⟩, ⟨fun _ => rfl, fun h => absurd rfl h⟩, (by unfold FltInv; decide),
    ⟨fun h => (by cases h), fun _ => by decide⟩, ?_⟩, rfl, rfl⟩
  intro _ i hd he
  have h : decode (inProgress 0x0000000000 1).accepted = .ok .nop := by decide
  rw [h] at hd
  injection hd with hd
  subst hd
  cases he
theorem test_hyp_HeldWordWaitsForTheCommit :
    let s (due : Nat) : State := { inProgress 0x1000000000 due with host := [.command 0x4000000000] }
    (s 1).host = .command 0x4000000000 :: [] ∧ (s 1).busy = true ∧ 1 ≤ (s 1).due ∧ 1 ≤ (s 5).due := by decide
theorem test_hyp_StepKeepsTheInvariants : Inv State.reset ∧ ∃ t, step State.reset = .next t := by
  refine ⟨⟨⟨fun _ => by decide, fun h => (by cases h)⟩, ⟨fun _ => rfl, fun h => absurd rfl h⟩, (by unfold FltInv; decide),
    ⟨fun _ => by decide, fun h => (by cases h)⟩, fun h => (by cases h)⟩, _, rfl⟩
/-- The key changes by a reset, by a presented `KEYLD`, and by a `CLR` at its commit edge. -/
theorem test_hyp_OnlyKeyldClrAndResetChangeTheKey :
    let key (s : State) := (s.sk0, s.sk1, s.sk2, s.kv)
    (after (step { keyed with host := [.reset] })).map key = some (0, 0, 0, false) ∧
    (after (step { State.reset with host := [.command 0x1012345678] })).map key = some (key keyed) ∧
    (after (step (inProgress 0x4000000000 1))).map key = some (0, 0, 0, false) := by decide
/-- The result changes by a reset, and by a fault entry. -/
theorem test_hyp_ResultsChangeOnlyAtACommit :
    (after (step { withResult with host := [.reset] })).map (·.dv) = some false ∧
    (after (step { withResult with host := [.command 0x6000000000] })).map (fun t => (t.flt, t.rsp.isSome, t.busy)) =
      some (1, true, false) := by decide

end Sys2Proof.Tests
end

section
/-! PROOFS. What a host can observe of the core, and what changes it: the reset elements (10_state.md R24), the frame of every
command (R14, R20, R25), and which clock edges can change key material and results (R12, 20_memory.md R32). -/

namespace Sys2Proof.Machine

/-! ### Reset -/

/-- Settles O8: State.reset is written with every element at zero. -/
theorem resetStateIsZero : Obligations.ResetStateIsZero :=
  ⟨rfl, rfl, rfl, rfl, rfl, rfl, rfl, rfl, rfl, rfl, rfl⟩

theorem coreIsReset_resetCore (s : State) : CoreIsReset (resetCore s) :=
  ⟨rfl, rfl, rfl, rfl, rfl, rfl, rfl, rfl, rfl, rfl, rfl⟩

theorem coreIsReset_clearSession (s : State) : CoreIsReset (clearSession s) :=
  ⟨rfl, rfl, rfl, rfl, rfl, rfl, rfl, rfl, rfl, rfl, rfl⟩

/-! ### The ports -/

/-- The bits of `status` (10_state.md R21), lowest first. -/
theorem statusPort_bits (s : State) :
    (statusPort s).getLsbD 0 = s.busy ∧ (statusPort s).getLsbD 1 = s.kv ∧ (statusPort s).getLsbD 2 = s.dv := by
  simp only [statusPort, BitVec.getLsbD_append]
  simp

theorem statusPort_flt (s : State) : (statusPort s).extractLsb' 3 3 = s.flt := by
  apply BitVec.eq_of_getLsbD_eq
  intro i hi
  simp only [statusPort, BitVec.getLsbD_extractLsb', BitVec.getLsbD_append]
  simp [hi]

theorem cmdReady_iff (rst : Bool) (s : State) : cmdReady rst s = true ↔ s.busy = false ∧ rst = false := by
  simp [cmdReady]

/-- With `rst = 0` a shown response is on the response port (20_memory.md R32). -/
theorem portOutputs_rsp {s : State} {r : Response} (h : s.rsp = some r) :
    (portOutputs false s).rspValid = true ∧ (portOutputs false s).rspWord = rspWord r := by
  simp [portOutputs, rspValid, h]

/-- Settles O42, port by port. -/
theorem portsShowTheState : Obligations.PortsShowTheState := by
  intro s rst
  obtain ⟨hbusy, hkv, hdv⟩ := statusPort_bits s
  refine ⟨hbusy, hkv, hdv, statusPort_flt s, rfl, cmdReady_iff rst s, ?_, ?_⟩
  · rintro r hr rfl
    exact portOutputs_rsp hr
  · intro hr
    simp [portOutputs, rspValid, hr]

/-! ### The frame of every command -/

/-- However a command ends, no command is in progress, and the counter and the host's events stay. -/
theorem exec_ends {i : Instr} {s t : State} (h : exec i s = .next t) :
    t.busy = false ∧ t.tick = s.tick ∧ t.host = s.host := by
  rcases exec_cases h with ⟨_, _, rfl⟩ | ⟨_, rfl⟩ | ⟨_, _, rfl⟩ | ⟨_, _, rfl⟩ | ⟨_, _, _, rfl⟩ | ⟨_, _, _, _, _, _, rfl⟩ |
    ⟨_, _, _, _, rfl⟩ | ⟨_, _, _, rfl⟩ <;> exact ⟨rfl, rfl, rfl⟩

/-- Only `CLR` and `KEYLD` write the key material (10_state.md R25). -/
theorem exec_keeps_key {i : Instr} {s t : State} (h : exec i s = .next t) (hclr : i ≠ .clr) (hkeyld : ∀ k, i ≠ .keyld k) :
    t.sk0 = s.sk0 ∧ t.sk1 = s.sk1 ∧ t.sk2 = s.sk2 ∧ t.kv = s.kv := by
  rcases exec_cases h with ⟨_, _, rfl⟩ | ⟨hi, _⟩ | ⟨_, _, rfl⟩ | ⟨_, _, rfl⟩ | ⟨_, k, hi, _⟩ | ⟨_, _, _, _, _, _, rfl⟩ |
    ⟨_, _, _, _, rfl⟩ | ⟨_, _, _, rfl⟩
  case inr.inl => exact absurd hi hclr
  case inr.inr.inr.inr.inl => exact absurd hi (hkeyld k)
  all_goals exact ⟨rfl, rfl, rfl, rfl⟩

/-- Only `CLR`, `ENC` and `DEC` write the engine's registers. -/
theorem exec_keeps_engine {i : Instr} {s t : State} (h : exec i s = .next t) (hclr : i ≠ .clr) (henc : ∀ d n, i ≠ .enc d n)
    (hdec : ∀ d n, i ≠ .dec d n) : SameEngine s t := by
  rcases exec_cases h with ⟨_, _, rfl⟩ | ⟨hi, _⟩ | ⟨_, _, rfl⟩ | ⟨_, _, rfl⟩ | ⟨_, _, _, rfl⟩ | ⟨_, _, d, n, hi, _, _⟩ |
    ⟨_, _, d, hi, _⟩ | ⟨_, _, _, rfl⟩
  case inr.inl => exact absurd hi hclr
  case inr.inr.inr.inr.inr.inl => exact absurd hi (henc d n)
  case inr.inr.inr.inr.inr.inr.inl => exact absurd hi (hdec d 4)
  all_goals exact ⟨rfl, rfl, rfl⟩

theorem exec_nop_of_unlocked {s : State} (h : s.flt = 0) : exec .nop s = .next (respond .ok 0 s) :=
  runChecked_run (needsKey := false) h nofun _

theorem exec_keyld_of_unlocked {s : State} (h : s.flt = 0) (k : Word) : exec (.keyld k) s = .next (loadKey k s) :=
  runChecked_run (needsKey := false) h nofun _

/-- `NOP` and `KEYLD` on an unlocked core raise no fault and give no result. -/
theorem exec_nop_keyld_keep_result {i : Instr} {s t : State} (h : exec i s = .next t) (hi : i = .nop ∨ ∃ k, i = .keyld k)
    (hf : s.flt = 0) : t.dout = s.dout ∧ t.dv = s.dv ∧ t.flt = s.flt := by
  rcases hi with rfl | ⟨k, rfl⟩
  · rw [exec_nop_of_unlocked hf] at h
    cases h
    exact ⟨rfl, rfl, rfl⟩
  · rw [exec_keyld_of_unlocked hf] at h
    cases h
    exact ⟨rfl, rfl, rfl⟩

/-- `FLT` is written by `CLR` and by a fault entry, and a fault entry does not answer OK (60_exceptions.md R146). -/
theorem exec_ok_keeps_flt {i : Instr} {s t : State} (h : exec i s = .next t) (hclr : i ≠ .clr)
    (hok : ∃ d, t.rsp = some ⟨.ok, d⟩) : t.flt = s.flt := by
  rcases exec_cases h with ⟨_, _, rfl⟩ | ⟨hi, _⟩ | ⟨_, _, rfl⟩ | ⟨_, _, rfl⟩ | ⟨_, _, _, rfl⟩ | ⟨_, _, _, _, _, _, rfl⟩ |
    ⟨_, _, _, _, rfl⟩ | ⟨_, _, _, rfl⟩
  case inr.inl => exact absurd hi hclr
  case inr.inr.inl => simp at hok
  all_goals rfl

/-- Settles O25, clause by clause. -/
theorem commandsKeepWhatTheyDoNotWrite : Obligations.CommandsKeepWhatTheyDoNotWrite := fun _ _ _ h =>
  ⟨exec_keeps_key h, exec_keeps_engine h, exec_nop_keyld_keep_result h, exec_ok_keeps_flt h, exec_ends h⟩

/-! ### What a clock edge can change -/

theorem SameVisible.refl (s : State) : SameVisible s s := ⟨rfl, rfl, rfl, rfl, rfl, rfl, rfl⟩

theorem acceptWord_sameVisible (cw : CmdWord) (s : State) : SameVisible s (acceptWord cw s) := by
  obtain ⟨w, rnd, dir, h⟩ := acceptWord_frame cw s
  rw [h]
  exact .refl s

theorem waitEdge_sameVisible (s : State) : SameVisible s (waitEdge s) := by
  obtain ⟨w, rnd, h⟩ := waitEdge_frame s
  rw [h]
  exact .refl s

/-- A clock edge is quiet, or it is the commit edge of a block operation the engine runs, or of any other command. -/
theorem clockEdge_quiet_or_commit {valid : Bool} {cw : CmdWord} {s t : State} (h : clockEdge valid cw s = .next t) :
    SameVisible s t ∨ (s.busy = true ∧ s.due ≤ 1 ∧
      ((∃ w rnd, t = commitResult w { s with rsp := none, tick := s.tick + 1, w := w, rnd := rnd }) ∨
        transaction s.accepted { s with rsp := none, tick := s.tick + 1 } = .next t)) := by
  rcases clockEdge_cases h with ⟨hb, hd, _, rfl⟩ | ⟨hb, hd, _, ht⟩ | ⟨_, _, rfl⟩ | ⟨_, _, rfl⟩ | ⟨_, _, rfl⟩
  · exact .inr ⟨hb, hd, .inl (finishBlock_frame _ _)⟩
  · exact .inr ⟨hb, hd, .inr ht⟩
  · exact .inl (waitEdge_sameVisible _)
  · exact .inl (acceptWord_sameVisible _ _)
  · exact .inl (.refl s)

/-- The subkeys and `KV` (10_state.md R12, R13). -/
def keyMaterial (s : State) : Word × Word × Word × Bool := (s.sk0, s.sk1, s.sk2, s.kv)

/-- `DOUT`, `DV` and `FLT` (R14, R15). -/
def resultRegisters (s : State) : Word × Bool × BitVec 3 := (s.dout, s.dv, s.flt)

theorem SameVisible.keyMaterial_eq {s t : State} (h : SameVisible s t) : keyMaterial t = keyMaterial s := by
  obtain ⟨h0, h1, h2, hkv, _⟩ := h
  simp [keyMaterial, h0, h1, h2, hkv]

theorem SameVisible.resultRegisters_eq {s t : State} (h : SameVisible s t) : resultRegisters t = resultRegisters s := by
  obtain ⟨_, _, _, _, hdout, hdv, hflt⟩ := h
  simp [resultRegisters, hdout, hdv, hflt]

/-- The word decodes to one of the two commands that write the key material. -/
def WritesKey (cw : CmdWord) : Prop := ∃ i, (i = .clr ∨ ∃ k, i = .keyld k) ∧ decode cw = .ok i

/-- A whole transaction that changes the key material executes `KEYLD` or `CLR`. -/
theorem transaction_changes_key {cw : CmdWord} {s t : State} (h : transaction cw s = .next t)
    (hne : keyMaterial t ≠ keyMaterial s) : WritesKey cw := by
  rcases transaction_cases h with ⟨i, hi, he⟩ | ⟨_, _, he⟩
  · by_contra hw
    have hclr : i ≠ .clr := fun e => hw ⟨i, .inl e, hi⟩
    have hkeyld : ∀ k, i ≠ .keyld k := fun k e => hw ⟨i, .inr ⟨k, e⟩, hi⟩
    obtain ⟨h0, h1, h2, hkv⟩ := exec_keeps_key he hclr hkeyld
    exact hne (by simp [keyMaterial, h0, h1, h2, hkv])
  · rcases execIllegal_cases he with ⟨_, rfl⟩ | ⟨_, rfl⟩ <;> exact absurd rfl hne

/-- A clock edge that changes the key material commits `KEYLD` or `CLR`. -/
theorem clockEdge_changes_key {valid : Bool} {cw : CmdWord} {s t : State} (h : clockEdge valid cw s = .next t)
    (hne : keyMaterial t ≠ keyMaterial s) : s.busy = true ∧ s.due ≤ 1 ∧ WritesKey s.accepted := by
  rcases clockEdge_quiet_or_commit h with hq | ⟨hb, hd, ⟨_, _, rfl⟩ | ht⟩
  · exact absurd hq.keyMaterial_eq hne
  · exact absurd rfl hne
  · exact ⟨hb, hd, transaction_changes_key ht hne⟩

/-- A clock edge that changes a result is a commit edge: the response is shown and the core is idle. -/
theorem clockEdge_changes_result {valid : Bool} {cw : CmdWord} {s t : State} (h : clockEdge valid cw s = .next t)
    (hne : resultRegisters t ≠ resultRegisters s) : t.rsp.isSome = true ∧ t.busy = false := by
  rcases clockEdge_quiet_or_commit h with hq | ⟨_, _, ⟨_, _, rfl⟩ | ht⟩
  · exact absurd hq.resultRegisters_eq hne
  · exact ⟨rfl, rfl⟩
  · obtain ⟨hbusy, _, _, hrsp, _, _⟩ := transaction_ends ht
    exact ⟨hrsp, hbusy⟩

/-- A step that changes the key material is a reset edge, the commit edge of `KEYLD` or `CLR`, or one of the two executed
whole. -/
theorem step_changes_key {s t : State} (h : step s = .next t) (hne : keyMaterial t ≠ keyMaterial s) :
    (∃ rest, s.host = .reset :: rest) ∨ (s.busy = true ∧ s.due ≤ 1 ∧ WritesKey s.accepted) ∨
    (∃ cw rest, s.host = .command cw :: rest ∧ s.busy = false ∧ WritesKey cw) := by
  rcases step_cases h with ⟨_, he⟩ | ⟨_, _, _, _, he⟩ | ⟨cw, rest, hh, hb, ht⟩ | ⟨_, _, rest, _, he⟩ | ⟨rest, hh, _⟩
  · exact .inr (.inl (clockEdge_changes_key he hne))
  · exact .inr (.inl (clockEdge_changes_key he hne))
  · exact .inr (.inr ⟨cw, rest, hh, hb, transaction_changes_key ht hne⟩)
  · exact .inr (.inl (clockEdge_changes_key (s := { s with host := rest }) he hne))
  · exact .inl ⟨rest, hh⟩

/-- Settles O52, by what a step that changes the key material can be. -/
theorem onlyKeyldClrAndResetChangeTheKey : Obligations.OnlyKeyldClrAndResetChangeTheKey := by
  intro s t h hne
  rcases step_changes_key h hne with hreset | ⟨hb, hd, i, hi, hdec⟩ | ⟨cw, rest, hh, hb, i, hi, hdec⟩
  · exact .inl hreset
  · exact .inr ⟨s.accepted, i, hi, hdec, .inl ⟨hb, hd, rfl⟩⟩
  · exact .inr ⟨cw, i, hi, hdec, .inr ⟨hb, rest, hh⟩⟩

/-- Settles O53, by the host's next event. -/
theorem resultsChangeOnlyAtACommit : Obligations.ResultsChangeOnlyAtACommit := by
  intro s t h hne
  rcases step_cases h with ⟨_, he⟩ | ⟨_, _, _, _, he⟩ | ⟨_, _, _, _, ht⟩ | ⟨_, _, _, _, he⟩ | ⟨rest, hh, _⟩
  · exact .inr (clockEdge_changes_result he hne)
  · exact .inr (clockEdge_changes_result he hne)
  · obtain ⟨hbusy, _, _, hrsp, _, _⟩ := transaction_ends ht
    exact .inr ⟨hrsp, hbusy⟩
  · exact .inr (clockEdge_changes_result he hne)
  · exact .inl ⟨rest, hh⟩

end Sys2Proof.Machine
end

section
/-! PROOFS. The invariants of 10_state.md R26, of the port and of the engine, at reset and under every step. Those of R26 speak of
what a host can observe and are kept by every command; those of the port and the engine are trivial of an idle core, and of a busy
one are kept by acceptance and by the edges before the commit. -/

namespace Sys2Proof.Machine

/-! ### The invariants of what a host can observe -/

/-- The invariants of R26: those that speak of the key material, the result and the fault only. -/
structure VisibleInv (s : State) : Prop where
  key : KeyInv s
  result : ResultInv s
  flt : FltInv s

theorem Inv.visible {s : State} (h : Inv s) : VisibleInv s := ⟨h.key, h.result, h.flt⟩

theorem VisibleInv.of_sameVisible {s t : State} (h : VisibleInv s) (e : SameVisible s t) : VisibleInv t := by
  obtain ⟨h0, h1, h2, hkv, hdout, hdv, hflt⟩ := e
  obtain ⟨hkey, hres, hf⟩ := h
  refine ⟨?_, ?_, ?_⟩
  · rwa [KeyInv, subkeys_congr h0 h1 h2, hkv]
  · rwa [ResultInv, hdout, hdv, hflt]
  · rwa [FltInv, hflt]

/-- The zero state meets R26, so reset and `CLR` establish it. -/
theorem VisibleInv.of_coreIsReset {s : State} (h : CoreIsReset s) : VisibleInv s := by
  obtain ⟨h0, h1, h2, hkv, hdout, hdv, hflt, _⟩ := h
  refine ⟨⟨fun _ i => ?_, fun hk => by simp [hkv] at hk⟩, ⟨fun _ => hdout, fun hf => absurd hflt hf⟩, ?_⟩
  · fin_cases i
    · exact h0
    · exact h1
    · exact h2
  · simp [FltInv, hflt]

/-- A result is written on an unlocked core only, with whatever the engine's registers hold. -/
theorem VisibleInv.commitResult {s : State} (h : VisibleInv s) (hf : s.flt = 0) (r w : Word) (rnd : Fin 3) (dir : Bool) :
    VisibleInv (commitResult r { s with w := w, rnd := rnd, dir := dir }) :=
  ⟨h.key, ⟨nofun, fun hne => absurd hf hne⟩, h.flt⟩

theorem VisibleInv.raiseFault {s : State} (h : VisibleInv s) (code : FaultCode) : VisibleInv (raiseFault code s) := by
  refine ⟨h.key, ⟨fun _ => rfl, fun _ => ⟨rfl, rfl⟩⟩, ?_⟩
  cases code <;> simp [FltInv, faultBits]

theorem VisibleInv.loadKey {s : State} (h : VisibleInv s) (key : Word) : VisibleInv (loadKey key s) := by
  have hsk : subkeys (Machine.loadKey key s) = generateSubkeys key :=
    (subkeys_congr (s := writeSubkeys (generateSubkeys key) s) rfl rfl rfl).trans (subkeys_writeSubkeys _ s)
  exact ⟨⟨nofun, fun _ => ⟨key, fun i => congrFun hsk i⟩⟩, h.result, h.flt⟩

/-- Every command keeps R26. -/
theorem exec_keeps_visibleInv {i : Instr} {s t : State} (h : VisibleInv s) (he : exec i s = .next t) : VisibleInv t := by
  rcases exec_cases he with ⟨_, _, rfl⟩ | ⟨_, rfl⟩ | ⟨_, code, rfl⟩ | ⟨_, _, rfl⟩ | ⟨_, key, _, rfl⟩ |
    ⟨hf, _, _, _, _, _, rfl⟩ | ⟨hf, _, _, _, rfl⟩ | ⟨hf, _, r, rfl⟩
  · exact h.of_sameVisible (.refl s)
  · exact .of_coreIsReset (coreIsReset_clearSession s)
  · exact h.raiseFault code
  · exact h.of_sameVisible (.refl s)
  · exact h.loadKey key
  · exact h.commitResult hf _ _ _ _
  · exact h.commitResult hf _ _ _ _
  · exact h.commitResult hf r s.w s.rnd s.dir

theorem transaction_keeps_visibleInv {cw : CmdWord} {s t : State} (h : VisibleInv s) (ht : transaction cw s = .next t) :
    VisibleInv t := by
  rcases transaction_cases ht with ⟨_, _, he⟩ | ⟨_, _, he⟩
  · exact exec_keeps_visibleInv h he
  · rcases execIllegal_cases he with ⟨_, rfl⟩ | ⟨_, rfl⟩
    · exact h.of_sameVisible (.refl s)
    · exact h.raiseFault .illegal

theorem engineRunning_unlocked {s : State} (h : engineRunning s = true) : s.flt = 0 := by
  unfold engineRunning at h
  split at h
  · exact (startsEngine_unlocked h).1
  · cases h

theorem finishBlock_keeps_visibleInv {t : Tables} {s : State} (h : VisibleInv s) (hf : s.flt = 0) :
    VisibleInv (finishBlock t s) := by
  obtain ⟨w, rnd, e⟩ := finishBlock_frame t s
  rw [e]
  exact h.commitResult hf w w rnd s.dir

/-! ### Idle cores -/

/-- An idle core that owes nothing meets the port's and the engine's invariants. -/
theorem VisibleInv.inv_of_idle {s : State} (h : VisibleInv s) (hb : s.busy = false) (ha : s.accepted = 0) (hd : s.due = 0) :
    Inv s where
  key := h.key
  result := h.result
  flt := h.flt
  port := ⟨fun _ => ⟨ha, hd⟩, fun hb' => by simp [hb] at hb'⟩
  engine := fun hb' => by simp [hb] at hb'

/-- Settles O50: the state after reset is zero and idle. -/
theorem resetMeetsTheInvariants : Obligations.ResetMeetsTheInvariants :=
  (VisibleInv.of_coreIsReset resetStateIsZero).inv_of_idle rfl rfl rfl

theorem resetCore_inv (s : State) : Inv (resetCore s) :=
  (VisibleInv.of_coreIsReset (coreIsReset_resetCore s)).inv_of_idle rfl rfl rfl

theorem transaction_keeps_inv {cw : CmdWord} {s t : State} (h : VisibleInv s) (ht : transaction cw s = .next t) : Inv t := by
  obtain ⟨hbusy, hacc, hdue, _⟩ := transaction_ends ht
  exact (transaction_keeps_visibleInv h ht).inv_of_idle hbusy hacc hdue

theorem finishBlock_keeps_inv {t : Tables} {s : State} (h : VisibleInv s) (hf : s.flt = 0) : Inv (finishBlock t s) :=
  (finishBlock_keeps_visibleInv h hf).inv_of_idle rfl rfl rfl

/-! ### The engine -/

/-- Whether a command starts the engine depends on `FLT` and `KV` only. -/
theorem startsEngine_congr {s t : State} (hf : t.flt = s.flt) (hk : t.kv = s.kv) (i : Instr) :
    startsEngine i t = startsEngine i s := by
  cases i <;> simp [startsEngine, isLocked, hf, hk]

/-- The start step of a command that starts the engine: its direction and its first working word, the same in every state. -/
theorem startStep_eq_startBlock {i : Instr} {s : State} (h : startsEngine i s = true) :
    ∃ dir p, ∀ u, startStep i u = startBlock dir p u := by
  cases i with
  | enc data len => exact ⟨false, padded data len, fun _ => rfl⟩
  | dec data len => exact ⟨true, data, fun _ => rfl⟩
  | _ => cases h

/-- The engine has come from its start step to the state's registers by `n` round steps. -/
theorem roundsBeforeLast_startBlock_eq_iff (t : Tables) (n : Nat) (dir : Bool) (p : Word) (s : State) :
    roundsBeforeLast t n (startBlock dir p s) = s ↔
      (roundsBeforeLast t n (startBlock dir p s)).w = s.w ∧ (roundsBeforeLast t n (startBlock dir p s)).rnd = s.rnd ∧
        dir = s.dir := by
  constructor
  · intro h
    have hdir : (roundsBeforeLast t n (startBlock dir p s)).dir = dir := by rw [roundsBeforeLast_frame]; rfl
    exact ⟨congrArg State.w h, congrArg State.rnd h, hdir.symm.trans (congrArg State.dir h)⟩
  · rintro ⟨hw, hrnd, rfl⟩
    rw [roundsBeforeLast_frame, hw, hrnd]
    rfl

/-- The engine's invariant does not look at the result, the edges due, the response, the counter or the host. -/
theorem EngineInv.congr {s t : State} (h : EngineInv s) (hsk : subkeys t = subkeys s) (he : SameEngine s t)
    (hflt : t.flt = s.flt) (hkv : t.kv = s.kv) (hbusy : t.busy = s.busy) (hacc : t.accepted = s.accepted) : EngineInv t := by
  intro hb i hi hstart
  rw [startsEngine_congr hflt hkv] at hstart
  obtain ⟨n, hn⟩ := h (hbusy ▸ hb) i (hacc ▸ hi) hstart
  obtain ⟨dir, p, hstep⟩ := startStep_eq_startBlock hstart
  obtain ⟨ew, ernd, edir⟩ := he
  rw [hstep, roundsBeforeLast_startBlock_eq_iff] at hn
  obtain ⟨hw, hrnd, hdir⟩ := hn
  obtain ⟨cw, crnd⟩ := roundsBeforeLast_congr Config.tables n (startBlock dir p t) (startBlock dir p s)
    (by simpa using hsk) rfl rfl rfl
  refine ⟨n, ?_⟩
  rw [hstep, roundsBeforeLast_startBlock_eq_iff]
  exact ⟨(cw.trans hw).trans ew.symm, (crnd.trans hrnd).trans ernd.symm, hdir.trans edir.symm⟩

/-- The start step overwrites whatever round steps wrote. -/
theorem startBlock_roundsBeforeLast (t : Tables) (n : Nat) (dir : Bool) (p : Word) (s : State) :
    startBlock dir p (roundsBeforeLast t n s) = startBlock dir p s := by
  rw [roundsBeforeLast_frame]
  rfl

/-- Further round steps keep the engine's invariant: they compose with those taken before (43_block_cipher.md R119). -/
theorem EngineInv.roundsBeforeLast {s : State} (h : EngineInv s) (m : Nat) :
    EngineInv (roundsBeforeLast Config.tables m s) := by
  have hframe := roundsBeforeLast_frame Config.tables m s
  intro hb i hi hstart
  have hb' : s.busy = true := by rwa [hframe] at hb
  have hi' : decode s.accepted = .ok i := by rwa [hframe] at hi
  have hstart' : startsEngine i s = true := by
    rwa [startsEngine_congr (s := s) (by rw [hframe]) (by rw [hframe])] at hstart
  obtain ⟨n, hn⟩ := h hb' i hi' hstart'
  obtain ⟨dir, p, hstep⟩ := startStep_eq_startBlock hstart'
  refine ⟨n + m, ?_⟩
  rw [hstep] at hn
  rw [hstep, startBlock_roundsBeforeLast, ← roundsBeforeLast_add, hn]

/-- At acceptance the engine is at its start step, or it is not started (43_block_cipher.md R120). -/
theorem acceptWord_engineInv (cw : CmdWord) (s : State) : EngineInv (acceptWord cw s) := by
  intro _ i hi hstart
  obtain ⟨w, rnd, dir, hframe⟩ := acceptWord_frame cw s
  have hi' : decode cw = .ok i := by rwa [hframe] at hi
  have hstart' : startsEngine i s = true := by
    rwa [startsEngine_congr (s := s) (by rw [hframe]; rfl) (by rw [hframe]; rfl)] at hstart
  obtain ⟨dir, p, hstep⟩ := startStep_eq_startBlock hstart'
  have haccept : acceptWord cw s = startBlock dir p (beginCommand cw s) := by
    simp [acceptWord, hi', hstart', hstep]
  refine ⟨0, ?_⟩
  rw [hstep, haccept]
  rfl

theorem waitEdge_engineInv {s : State} (h : EngineInv s) : EngineInv (waitEdge s) := by
  unfold waitEdge
  split
  · exact (h.roundsBeforeLast _).congr rfl ⟨rfl, rfl, rfl⟩ rfl rfl rfl rfl
  · exact h.congr rfl ⟨rfl, rfl, rfl⟩ rfl rfl rfl rfl

/-! ### Clock edges and steps -/

/-- The invariants do not look at the counter, the host's events or an idle core's response. -/
theorem Inv.with_bookkeeping {s : State} (h : Inv s) {rsp : Option Response} (hr : s.busy = true → rsp = none) (tick : Nat)
    (host : List HostEvent) : Inv { s with rsp := rsp, tick := tick, host := host } where
  key := h.key
  result := h.result
  flt := h.flt
  port := ⟨h.port.1, fun hb => ⟨(h.port.2 hb).1, hr hb⟩⟩
  engine := h.engine.congr rfl ⟨rfl, rfl, rfl⟩ rfl rfl rfl rfl

theorem Inv.with_host {s : State} (h : Inv s) (host : List HostEvent) : Inv { s with host := host } :=
  h.with_bookkeeping (fun hb => (h.port.2 hb).2) s.tick host

theorem acceptWord_keeps_inv {s : State} (h : VisibleInv s) (hr : s.rsp = none) (cw : CmdWord) : Inv (acceptWord cw s) := by
  obtain ⟨hkey, hres, hflt⟩ := h.of_sameVisible (acceptWord_sameVisible cw s)
  refine ⟨hkey, hres, hflt, ?_, acceptWord_engineInv cw s⟩
  obtain ⟨w, rnd, dir, hframe⟩ := acceptWord_frame cw s
  rw [hframe]
  exact ⟨nofun, fun _ => ⟨Nat.le_add_right 1 _, hr⟩⟩

theorem waitEdge_keeps_inv {s : State} (h : Inv s) (hb : s.busy = true) (hd : 1 < s.due) : Inv (waitEdge s) := by
  obtain ⟨hkey, hres, hflt⟩ := h.visible.of_sameVisible (waitEdge_sameVisible s)
  refine ⟨hkey, hres, hflt, ?_, waitEdge_engineInv h.engine⟩
  obtain ⟨w, rnd, hframe⟩ := waitEdge_frame s
  rw [hframe]
  exact ⟨fun hidle => by simp [hb] at hidle, fun _ => ⟨Nat.le_sub_one_of_lt hd, (h.port.2 hb).2⟩⟩

theorem clockEdge_keeps_inv {valid : Bool} {cw : CmdWord} {s t : State} (h : Inv s) (he : clockEdge valid cw s = .next t) :
    Inv t := by
  have h' : Inv { s with rsp := none, tick := s.tick + 1 } := h.with_bookkeeping (fun _ => rfl) _ _
  rcases clockEdge_cases he with ⟨_, _, hrun, rfl⟩ | ⟨_, _, _, ht⟩ | ⟨hb, hd, rfl⟩ | ⟨_, _, rfl⟩ | ⟨_, _, rfl⟩
  · exact finishBlock_keeps_inv h'.visible (engineRunning_unlocked hrun)
  · exact transaction_keeps_inv h'.visible ht
  · exact waitEdge_keeps_inv h' hb hd
  · exact acceptWord_keeps_inv h'.visible rfl cw
  · exact h'

/-- Settles O51, by the host's next event: a clock edge, a whole transaction or a reset edge. -/
theorem stepKeepsTheInvariants : Obligations.StepKeepsTheInvariants := by
  intro s t h hstep
  rcases step_cases hstep with ⟨_, he⟩ | ⟨_, _, _, _, he⟩ | ⟨_, rest, _, _, ht⟩ | ⟨_, _, rest, _, he⟩ | ⟨_, _, rfl⟩
  · exact clockEdge_keeps_inv h he
  · exact clockEdge_keeps_inv h he
  · exact transaction_keeps_inv (h.with_host rest).visible ht
  · exact clockEdge_keeps_inv (h.with_host rest) he
  · exact resetCore_inv _

end Sys2Proof.Machine
end

section
/-! PROOFS. What the port does (20_memory.md R31 to R33): which word a step runs, what an edge of an idle and of a busy core does,
and how long a busy core is busy. -/

namespace Sys2Proof.Machine

/-! ### One edge of the port, by what the core is doing -/

/-- An idle core accepts the word presented (R31). -/
theorem clockEdge_of_idle {s : State} (hb : s.busy = false) (cw : CmdWord) :
    clockEdge true cw s = .next (acceptWord cw { s with rsp := none, tick := s.tick + 1 }) := by
  simp [clockEdge, hb]

/-- A busy core takes no notice of the pins (R31, 70_reset_and_hazards.md R171). -/
theorem clockEdge_of_busy {s : State} (hb : s.busy = true) (valid : Bool) (cw : CmdWord) :
    clockEdge valid cw s = clockEdge false 0 s := by
  simp [clockEdge, hb]

/-- An edge before the commit edge (R32). -/
theorem clockEdge_of_waiting {s : State} (hb : s.busy = true) (hd : 2 ≤ s.due) (valid : Bool) (cw : CmdWord) :
    clockEdge valid cw s = .next (waitEdge { s with rsp := none, tick := s.tick + 1 }) := by
  have hd' : ¬ s.due ≤ 1 := by omega
  simp [clockEdge, hb, hd']

/-- The commit edge ends the command and shows its response (R32). -/
theorem clockEdge_ends_command {s t : State} {valid : Bool} {cw : CmdWord} (hb : s.busy = true) (hd : s.due ≤ 1)
    (h : clockEdge valid cw s = .next t) : t.busy = false ∧ t.host = s.host ∧ t.rsp.isSome = true := by
  rcases clockEdge_cases h with ⟨_, _, _, rfl⟩ | ⟨_, _, _, ht⟩ | ⟨_, hd', _⟩ | ⟨hb', _⟩ | ⟨hb', _⟩
  · obtain ⟨w, rnd, e⟩ := finishBlock_frame Config.tables { s with rsp := none, tick := s.tick + 1 }
    rw [e]
    exact ⟨rfl, rfl, rfl⟩
  · obtain ⟨hbusy, _, _, hrsp, _, hhost⟩ := transaction_ends ht
    exact ⟨hbusy, hhost, hrsp⟩
  · omega
  · simp [hb] at hb'
  · simp [hb] at hb'

/-- Settles O43: acceptance by its frame; the pins of a busy core by the edge's own case split. -/
theorem acceptanceTakesTheWord : Obligations.AcceptanceTakesTheWord := by
  refine ⟨fun s cw hb => ⟨_, clockEdge_of_idle hb cw, ?_⟩, fun _ valid cw hb => clockEdge_of_busy hb valid cw⟩
  obtain ⟨w, rnd, dir, hframe⟩ := acceptWord_frame cw { s with rsp := none, tick := s.tick + 1 }
  rw [hframe]
  exact ⟨rfl, rfl, Nat.le_add_right 1 _, rfl, .refl s, rfl⟩

/-- Settles O44, by the frame of an edge before the commit. -/
theorem busyEdgesAreSilent : Obligations.BusyEdgesAreSilent := by
  intro s valid cw hb hd
  refine ⟨_, clockEdge_of_waiting hb hd valid cw, ?_⟩
  obtain ⟨w, rnd, hframe⟩ := waitEdge_frame { s with rsp := none, tick := s.tick + 1 }
  rw [hframe]
  exact ⟨.refl s, hb, rfl, rfl, Nat.sub_add_cancel (Nat.le_of_lt hd), rfl⟩

/-! ### One step, by the host's next event -/

/-- A word presented to an idle core is executed whole (R33). -/
theorem step_command_of_idle {s : State} {cw : CmdWord} {rest : List HostEvent} (hh : s.host = .command cw :: rest)
    (hb : s.busy = false) : step s = transaction cw { s with host := rest } := by
  simp [step, runHost, hh, hb]

/-- A word presented to a busy core is held, and the edge passes (R31). -/
theorem step_command_of_busy {s : State} {cw : CmdWord} {rest : List HostEvent} (hh : s.host = .command cw :: rest)
    (hb : s.busy = true) : step s = clockEdge true cw s := by
  simp [step, runHost, hh, hb]

theorem step_edge {s : State} {valid : Bool} {cw : CmdWord} {rest : List HostEvent} (hh : s.host = .edge valid cw :: rest) :
    step s = clockEdge valid cw { s with host := rest } := by
  simp [step, runHost, hh]

/-- A host with no event left presents nothing. -/
theorem step_of_no_event {s : State} (hh : s.host = []) : step s = clockEdge false 0 s := by
  simp [step, runHost, hh]

theorem transaction_of_decoded {cw : CmdWord} {i : Instr} (h : decode cw = .ok i) (s : State) : transaction cw s = exec i s := by
  simp [transaction, h]

theorem transaction_of_illegal {cw : CmdWord} {r : Illegal} (h : decode cw = .error r) (s : State) :
    transaction cw s = execIllegal s := by
  simp [transaction, h]

/-- A command word is the table word of its own bits. -/
@[simp] theorem tableWord_toNat (cw : CmdWord) : tableWord 40 cw.toNat = cw := by
  rw [tableWord, Nat.mod_eq_of_lt cw.isLt, BitVec.ofNat_toNat, BitVec.setWidth_eq]

/-- The word `withFetchWord` presents is executed whole by the next step. -/
theorem step_withFetchWord (s : State) (cw : CmdWord) :
    step (s.withFetchWord 40 cw.toNat) = transaction cw { s with busy := false, accepted := 0, due := 0 } := by
  rw [State.withFetchWord, tableWord_toNat]
  exact step_command_of_idle rfl rfl

/-- Settles O6, event by event. -/
theorem stepRunsTheDecodedCommand : Obligations.StepRunsTheDecodedCommand := by
  refine ⟨?_, ?_, ?_, fun _ _ _ _ hh => step_edge hh, fun _ hh => step_of_no_event hh,
    fun _ _ _ hh hb => step_command_of_busy hh hb⟩
  · intro s cw rest i hh hb hi
    rw [step_command_of_idle hh hb, transaction_of_decoded hi]
  · intro s cw rest r hh hb hr
    rw [step_command_of_idle hh hb, transaction_of_illegal hr]
  · intro s cw i hi
    rw [step_withFetchWord, transaction_of_decoded hi]

/-! ### A held word -/

/-- Settles O49, by induction on the edges due: each edge but the last leaves one fewer due and the host's events as they were
(O44), and the last ends the command. -/
theorem heldWordWaitsForTheCommit : Obligations.HeldWordWaitsForTheCommit := by
  intro s cw rest hh hb hd
  induction hn : s.due generalizing s with
  | zero => omega
  | succ n ih =>
    cases n with
    | zero =>
      obtain ⟨t, ht⟩ := clockEdge_next true cw s
      refine ⟨t, ?_, clockEdge_ends_command hb hn.le ht⟩
      rw [core_run_step ((step_command_of_busy hh hb).trans ht), core_run_zero]
    | succ n =>
      obtain ⟨u, hu, _, hbu, _, _, hdue, hhost⟩ := busyEdgesAreSilent s true cw hb (by omega)
      obtain ⟨t, hrun, hidle, ht, hrsp⟩ := ih u (hhost.trans hh) hbu (by omega) (by omega)
      refine ⟨t, ?_, hidle, ht.trans hhost, hrsp⟩
      rw [core_run_step ((step_command_of_busy hh hb).trans hu), hrun]

end Sys2Proof.Machine
end

section
/-! PROOFS. Blocks and bytes (20_memory.md R34, R35), the units and rounds undone by their inverses (40_sbox_perm_units.md R81,
42_round_function.md R107, 43_block_cipher.md R118), and the round trip of a file (20_memory.md R47, R48). -/

namespace Sys2Proof.Machine

/-! ### A word and its bytes -/

theorem toNat_append_eq_add {n m : Nat} (a : BitVec n) (b : BitVec m) : (a ++ b).toNat = a.toNat * 2 ^ m + b.toNat := by
  rw [BitVec.toNat_append, ← Nat.shiftLeft_add_eq_or_of_lt b.isLt, Nat.shiftLeft_eq]

theorem toNat_packBe (b0 b1 b2 b3 : Byte) :
    (packBe b0 b1 b2 b3).toNat = b0.toNat * 2 ^ 24 + b1.toNat * 2 ^ 16 + b2.toNat * 2 ^ 8 + b3.toNat := by
  simp only [packBe, toNat_append_eq_add]
  ring

/-- Each byte is in its own place. -/
@[simp] theorem unpackBe_packBe (b0 b1 b2 b3 : Byte) : unpackBe (packBe b0 b1 b2 b3) = [b0, b1, b2, b3] := by
  simp only [unpackBe, List.cons.injEq, and_true]
  refine ⟨?_, ?_, ?_, ?_⟩ <;>
  · apply BitVec.eq_of_getLsbD_eq
    intro i hi
    simp only [packBe, BitVec.getLsbD_extractLsb', BitVec.getLsbD_append]
    grind

/-- A word is packed from its bytes. -/
theorem packBe_bytes (w : Word) :
    packBe (w.extractLsb' 24 8) (w.extractLsb' 16 8) (w.extractLsb' 8 8) (w.extractLsb' 0 8) = w := by
  apply BitVec.eq_of_getLsbD_eq
  intro i hi
  simp only [packBe, BitVec.getLsbD_append, BitVec.getLsbD_extractLsb']
  grind

/-- Settles O38, by the places of the four bytes. -/
theorem blocksAreBigEndian : Obligations.BlocksAreBigEndian :=
  ⟨fun b0 b1 b2 b3 => ⟨toNat_packBe b0 b1 b2 b3, unpackBe_packBe b0 b1 b2 b3⟩,
    fun w => ⟨_, _, _, _, rfl, packBe_bytes w⟩⟩

/-! ### Padding -/

theorem getLsbD_padMask (len : BitVec 3) {i : Nat} (hi : i < 32) :
    (padMask len).getLsbD i = decide (8 * (4 - len.toNat) ≤ i) := by
  have hi' : i - 8 * (4 - len.toNat) < 32 := by omega
  rw [padMask, show (0xFFFFFFFF : Word) = BitVec.allOnes 32 from rfl, BitVec.getLsbD_shiftLeft, BitVec.getLsbD_allOnes]
  simp [hi, hi', ← decide_not]

/-- Padding keeps the bits above the padding and clears those in it. -/
theorem getLsbD_padded (data : Word) (len : BitVec 3) (i : Nat) :
    (padded data len).getLsbD i = (data.getLsbD i && decide (8 * (4 - len.toNat) ≤ i)) := by
  rw [padded, BitVec.getLsbD_and]
  by_cases hi : i < 32
  · rw [getLsbD_padMask len hi]
  · simp [BitVec.getLsbD_of_ge data i (by omega)]

/-- A byte of the first `len` is kept. -/
theorem byte_padded_of_kept (data : Word) {len : BitVec 3} {p : Nat} (h : 8 * (4 - len.toNat) ≤ p) :
    (padded data len).extractLsb' p 8 = data.extractLsb' p 8 := by
  apply BitVec.eq_of_getLsbD_eq
  intro i hi
  have hp : 8 * (4 - len.toNat) ≤ p + i := by omega
  simp [BitVec.getLsbD_extractLsb', getLsbD_padded, hp]

/-- A byte beyond `len` is replaced by zero. -/
theorem byte_padded_of_zeroed (data : Word) {len : BitVec 3} {p : Nat} (h : p + 8 ≤ 8 * (4 - len.toNat)) :
    (padded data len).extractLsb' p 8 = 0 := by
  apply BitVec.eq_of_getLsbD_eq
  intro i hi
  have hp : ¬ 8 * (4 - len.toNat) ≤ p + i := by omega
  simp [BitVec.getLsbD_extractLsb', getLsbD_padded, hp]

theorem len_cases_of_legal {len : BitVec 3} (h1 : 1 ≤ len.toNat) (h4 : len.toNat ≤ 4) : len = 1 ∨ len = 2 ∨ len = 3 ∨ len = 4 := by
  revert len
  decide

/-- Each of the four bytes is kept or zeroed, as `LEN` says (R35). -/
theorem unpackBe_padded (data : Word) {len : BitVec 3} (h1 : 1 ≤ len.toNat) (h4 : len.toNat ≤ 4) :
    unpackBe (padded data len) = (unpackBe data).take len.toNat ++ List.replicate (4 - len.toNat) 0 := by
  rcases len_cases_of_legal h1 h4 with rfl | rfl | rfl | rfl <;>
    simp [unpackBe, byte_padded_of_kept, byte_padded_of_zeroed, List.replicate]

/-- Settles O39, byte by byte; the masks are computed. -/
theorem paddingZeroesTheLowBytes : Obligations.PaddingZeroesTheLowBytes :=
  ⟨fun data _ h1 h4 => unpackBe_padded data h1 h4, by decide, by decide, by decide, by decide⟩

/-! ### Encryption undone by decryption -/

theorem permuteInverse_permute {t : Tables} (h : t.wf = true) (w : Word) : permuteInverse t (permute t w) = w := by
  apply BitVec.eq_of_getLsbD_eq
  intro i hi
  rw [getLsbD_permuteInverse t (permute t w) ⟨i, hi⟩, getLsbD_permute h]

theorem substituteInverse_substitute {t : Tables} (h : t.wf = true) (w : Word) :
    substituteInverse t (substitute t w) = w :=
  word_ext_nib fun k => by rw [nib_substituteInverse, nib_substitute, isboxAt_sboxAt h]

/-- The inverse round takes off the subkey, the permutation and the substitution in turn (42_round_function.md R107). -/
theorem roundInv_roundFwd {t : Tables} (h : t.wf = true) (w sk : Word) : roundInv t (roundFwd t w sk) sk = w := by
  rw [roundInv, roundFwd, BitVec.xor_assoc, BitVec.xor_self, BitVec.xor_zero, permuteInverse_permute h,
    substituteInverse_substitute h]

/-- Three rounds undone, the last one first (43_block_cipher.md R118). -/
theorem decryptWord_encryptWord {t : Tables} (h : t.wf = true) (sk : Fin 3 → Word) (p : Word) :
    decryptWord t sk (encryptWord t sk p) = p := by
  simp [decryptWord, encryptWord, roundInv_roundFwd h]

/-! ### A file -/

/-- The word a host has encrypted for one chunk (20_memory.md R47). -/
def paddedChunk (c : List Byte) : Word := padded (blockOfBytes c) (BitVec.ofNat 3 c.length)

/-- The bytes of a chunk's word are the chunk and its padding. -/
theorem unpackBe_paddedChunk {c : List Byte} (h1 : 1 ≤ c.length) (h4 : c.length ≤ 4) :
    unpackBe (paddedChunk c) = c ++ List.replicate (4 - c.length) 0 := by
  have hlen : (BitVec.ofNat 3 c.length).toNat = c.length := by
    rw [BitVec.toNat_ofNat]
    omega
  rw [paddedChunk, unpackBe_padded _ (by omega) (by omega), blockOfBytes, unpackBe_packBe, hlen]
  congr 1
  match c with
  | [_] => rfl
  | [_, _] => rfl
  | [_, _, _] => rfl
  | [_, _, _, _] => rfl

/-- Decrypting a file's words gives the words that were encrypted. -/
theorem decrypt_encrypted_chunks {t : Tables} (h : t.wf = true) (sk : Fin 3 → Word) (cs : List (List Byte)) :
    (cs.map fun c => encryptWord t sk (paddedChunk c)).map (decryptWord t sk) = cs.map paddedChunk := by
  simp only [List.map_map, Function.comp_def, decryptWord_encryptWord h]

theorem resultBytes_cons (w : Word) (ws : List Word) : resultBytes (w :: ws) = unpackBe w ++ resultBytes ws := rfl

theorem length_resultBytes (ws : List Word) : (resultBytes ws).length = 4 * ws.length := by
  induction ws with
  | nil => rfl
  | cons w ws ih =>
    rw [resultBytes_cons, List.length_append, ih]
    simp [unpackBe]
    omega

/-- The bytes of a file's words are the file and the padding of its last chunk: every chunk before it is full. -/
theorem resultBytes_paddedChunks (plain : List Byte) :
    ∃ n, resultBytes ((chunks plain).map paddedChunk) = plain ++ List.replicate n 0 := by
  induction plain using chunks.induct with
  | case1 => exact ⟨0, rfl⟩
  | case2 a => exact ⟨3, by simp [chunks, resultBytes, unpackBe_paddedChunk]⟩
  | case3 a b => exact ⟨2, by simp [chunks, resultBytes, unpackBe_paddedChunk]⟩
  | case4 a b c => exact ⟨1, by simp [chunks, resultBytes, unpackBe_paddedChunk]⟩
  | case5 a b c d rest ih =>
    obtain ⟨n, hn⟩ := ih
    exact ⟨n, by simp [chunks, resultBytes_cons, unpackBe_paddedChunk, hn]⟩

theorem stripTrailingZeros_append_zeros (l : List Byte) (n : Nat) :
    stripTrailingZeros (l ++ List.replicate n 0) = stripTrailingZeros l := by
  simp [stripTrailingZeros]

/-- Stripping changes nothing where no zero byte ends the list. -/
theorem stripTrailingZeros_of_getLast {l : List Byte} (h : l.getLast? ≠ some 0) : stripTrailingZeros l = l := by
  refine List.rdropWhile_eq_self_iff.mpr fun hl => ?_
  simpa [List.getLast?_eq_some_getLast hl] using h

/-- Settles O40: every word is decrypted to the padded chunk it came from, whose bytes are the file's and trailing zeros. -/
theorem fileRoundTrip : Obligations.FileRoundTrip := by
  intro t ht k plain hlast sk cipher
  have hwords : cipher.map (decryptWord t sk) = (chunks plain).map paddedChunk := decrypt_encrypted_chunks ht sk _
  obtain ⟨n, hn⟩ := resultBytes_paddedChunks plain
  refine ⟨by rw [length_resultBytes, Nat.mul_mod_right], ?_⟩
  rw [hwords, hn, stripTrailingZeros_append_zeros, stripTrailingZeros_of_getLast hlast]

end Sys2Proof.Machine
end

section
/-! PROOFS. The decoder and the encoder (30_encoding.md R50 to R58): which words decode and to what, which are illegal and what an
illegal word does, the response word (R51, R63), the direction bit of the opcode (R53), and lines of the assembler (R61, R62). -/

namespace Sys2Proof

/-! ### When each form of operands decodes -/

theorem decodeWordOperand_eq_ok_iff {make : Word → Instr} {len : BitVec 3} {d : Word} {i : Instr} :
    decodeWordOperand make len d = .ok i ↔ len = 0 ∧ make d = i := by
  unfold decodeWordOperand
  split <;> simp_all

theorem decodeNoOperand_eq_ok_iff {i j : Instr} {len : BitVec 3} {d : Word} :
    decodeNoOperand i len d = .ok j ↔ len = 0 ∧ d = 0 ∧ i = j := by
  unfold decodeNoOperand
  split_ifs <;> simp_all

theorem decodeBlock_eq_ok_iff {make : Word → BitVec 3 → Instr} {len : BitVec 3} {d : Word} {i : Instr} :
    decodeBlock make len d = .ok i ↔ WellFormed.lenLegal len = true ∧ make d len = i := by
  unfold decodeBlock
  split <;> simp_all

/-- The data of `RDSK` is its index with zeros above it (R55). -/
theorem eq_zeroExtend_iff {d : Word} {index : BitVec 2} :
    d = index.zeroExtend 32 ↔ d.extractLsb' 2 30 = 0 ∧ d.extractLsb' 0 2 = index := by
  have hd := d.isLt
  have hindex := index.isLt
  simp only [BitVec.truncate_eq_setWidth, BitVec.ofNat_eq_ofNat, BitVec.toNat_eq, BitVec.toNat_setWidth, BitVec.extractLsb'_toNat,
    Nat.shiftRight_eq_div_pow, BitVec.toNat_ofNat]
  omega

theorem decodeRdsk_eq_ok_iff {len : BitVec 3} {d : Word} {i : Instr} :
    decodeRdsk len d = .ok i ↔
      len = 0 ∧ ∃ index : BitVec 2, WellFormed.indexLegal index = true ∧ d = index.zeroExtend 32 ∧ .rdsk index = i := by
  constructor
  · intro h
    unfold decodeRdsk at h
    split_ifs at h with hlen hlegal
    obtain ⟨hzero, hindex⟩ := hlegal
    cases h
    exact ⟨not_not.mp hlen, _, hindex, eq_zeroExtend_iff.mpr ⟨hzero, rfl⟩, rfl⟩
  · rintro ⟨rfl, index, hindex, hd, rfl⟩
    obtain ⟨hzero, rfl⟩ := eq_zeroExtend_iff.mp hd
    rw [decodeRdsk, if_neg (by simp), if_pos ⟨hzero, hindex⟩]

/-! ### Decoding and encoding are inverse (R58) -/

/-- The fields that decode to a command are those of the command, and the command is well formed. -/
theorem decodeOp_eq_ok_iff {op : BitVec 4} {len : BitVec 3} {d : Word} {i : Instr} :
    decodeOp op len d = .ok i ↔ i.wf = true ∧ opOf i = op ∧ lenOf i = len ∧ dataOf i = d := by
  constructor
  · intro h
    unfold decodeOp at h
    split at h
    case h_1 | h_5 =>
      obtain ⟨rfl, rfl, rfl⟩ := decodeNoOperand_eq_ok_iff.mp h
      exact ⟨rfl, rfl, rfl, rfl⟩
    case h_3 | h_4 =>
      obtain ⟨hlen, rfl⟩ := decodeBlock_eq_ok_iff.mp h
      exact ⟨hlen, rfl, rfl, rfl⟩
    case h_6 =>
      obtain ⟨rfl, index, hindex, rfl, rfl⟩ := decodeRdsk_eq_ok_iff.mp h
      exact ⟨hindex, rfl, rfl, rfl⟩
    case h_2 | h_7 | h_8 | h_9 | h_10 =>
      obtain ⟨rfl, rfl⟩ := decodeWordOperand_eq_ok_iff.mp h
      exact ⟨rfl, rfl, rfl, rfl⟩
    case h_11 => cases h
  · rintro ⟨hwf, rfl, rfl, rfl⟩
    cases i with
    | nop | clr => exact decodeNoOperand_eq_ok_iff.mpr ⟨rfl, rfl, rfl⟩
    | enc _ _ | dec _ _ => exact decodeBlock_eq_ok_iff.mpr ⟨hwf, rfl⟩
    | rdsk index => exact decodeRdsk_eq_ok_iff.mpr ⟨rfl, index, hwf, rfl, rfl⟩
    | keyld _ | sub _ | isub _ | prm _ | iprm _ => exact decodeWordOperand_eq_ok_iff.mpr ⟨rfl, rfl⟩

/-- A word decodes to a command exactly when it is the word of that command, and the command is well formed. -/
theorem decode_eq_ok_iff {cw : CmdWord} {i : Instr} : decode cw = .ok i ↔ i.wf = true ∧ encode i = cw := by
  constructor
  · intro h
    unfold decode at h
    split at h
    · cases h
    · have hz : cwZ cw = 0 := not_not.mp ‹_›
      obtain ⟨hwf, hop, hlen, hdata⟩ := decodeOp_eq_ok_iff.mp h
      refine ⟨hwf, ?_⟩
      rw [encode, hop, hlen, hdata, ← hz, cwPack_fields]
  · rintro ⟨hwf, rfl⟩
    rw [encode, decode_pack]
    exact decodeOp_eq_ok_iff.mpr ⟨hwf, rfl, rfl, rfl⟩

/-- Settles O1: the word of a well-formed command decodes to it. -/
theorem decodeOfEncodeIsTheCommand : Obligations.DecodeOfEncodeIsTheCommand := fun _ hwf =>
  decode_eq_ok_iff.mpr ⟨hwf, rfl⟩

/-- Settles O2: a word decodes only to a well-formed command whose word it is. -/
theorem encodeOfDecodeIsTheWord : Obligations.EncodeOfDecodeIsTheWord := fun _ _ =>
  decode_eq_ok_iff.mp

/-! ### Illegal words (R57) -/

/-- A refused word is one that decodes to no command. -/
theorem exists_error_iff {α ε : Type} {x : Except ε α} : (∃ r, x = .error r) ↔ ∀ a, x ≠ .ok a := by
  cases x <;> simp

theorem decodeWordOperand_error_iff {make : Word → Instr} {len : BitVec 3} {d : Word} :
    (∃ r, decodeWordOperand make len d = .error r) ↔ len.toNat ≠ 0 := by
  simp [exists_error_iff, decodeWordOperand_eq_ok_iff, BitVec.toNat_eq]

theorem decodeNoOperand_error_iff {i : Instr} {len : BitVec 3} {d : Word} :
    (∃ r, decodeNoOperand i len d = .error r) ↔ len.toNat ≠ 0 ∨ d.toNat ≠ 0 := by
  simp [exists_error_iff, decodeNoOperand_eq_ok_iff, BitVec.toNat_eq, ← imp_iff_not_or]

theorem decodeBlock_error_iff {make : Word → BitVec 3 → Instr} {len : BitVec 3} {d : Word} :
    (∃ r, decodeBlock make len d = .error r) ↔ len.toNat ∈ [0, 5, 6, 7] := by
  have hlegal : WellFormed.lenLegal len = false ↔ len.toNat ∈ [0, 5, 6, 7] := by revert len; decide
  simp [exists_error_iff, decodeBlock_eq_ok_iff, ← hlegal]

/-- The data of `RDSK` names a subkey exactly when it is below 3. -/
theorem exists_legal_index_iff {d : Word} :
    (∃ index : BitVec 2, WellFormed.indexLegal index = true ∧ d = index.zeroExtend 32) ↔ d.toNat < 3 := by
  constructor
  · rintro ⟨index, hindex, rfl⟩
    revert index
    decide
  · intro hd
    refine ⟨d.setWidth 2, ?_, ?_⟩
    · have hmod : d.toNat % 4 ≤ 2 := by omega
      simpa [WellFormed.indexLegal] using hmod
    · have hmod : d.toNat = d.toNat % 4 % 2 ^ 32 := by omega
      simpa [BitVec.toNat_eq] using hmod

theorem decodeRdsk_error_iff {len : BitVec 3} {d : Word} :
    (∃ r, decodeRdsk len d = .error r) ↔ len.toNat ≠ 0 ∨ 3 ≤ d.toNat := by
  have h : (∃ i, decodeRdsk len d = .ok i) ↔ len.toNat = 0 ∧ d.toNat < 3 := by
    simp [← exists_legal_index_iff, decodeRdsk_eq_ok_iff, BitVec.toNat_eq]
  rw [exists_error_iff, ← not_exists, h]
  omega

/-- `LEN` and `DATA` are not legal for the opcode, or the opcode is reserved (R52, R54, R55), in numbers. -/
def IllegalOperands (op len d : Nat) : Prop :=
  op ∈ [0x6, 0x7, 0xC, 0xD, 0xE, 0xF] ∨ (op ∈ [0x2, 0x3] ∧ len ∈ [0, 5, 6, 7]) ∨
    (op ∉ [0x2, 0x3] ∧ len ≠ 0) ∨ (op ∈ [0x0, 0x4] ∧ d ≠ 0) ∨ (op = 0x5 ∧ 3 ≤ d)

theorem decodeOp_error_iff {op : BitVec 4} {len : BitVec 3} {d : Word} :
    (∃ r, decodeOp op len d = .error r) ↔ IllegalOperands op.toNat len.toNat d.toNat := by
  unfold decodeOp
  split
  case h_1 | h_5 => simp [decodeNoOperand_error_iff, IllegalOperands]
  case h_3 | h_4 => simp [decodeBlock_error_iff, IllegalOperands]
  case h_6 => simp [decodeRdsk_error_iff, IllegalOperands]
  case h_2 | h_7 | h_8 | h_9 | h_10 => simp [decodeWordOperand_error_iff, IllegalOperands]
  case h_11 =>
    have hreserved : op.toNat ∈ [0x6, 0x7, 0xC, 0xD, 0xE, 0xF] := by
      clear len d
      revert op
      decide
    exact iff_of_true ⟨_, rfl⟩ (.inl hreserved)

namespace Machine

/-- R57, field by field: `Z` is not 0, or the other fields are not legal together. -/
theorem illegalWord_iff (cw : CmdWord) :
    IllegalWord cw ↔ cwZ cw ≠ 0 ∨ IllegalOperands (cwOp cw).toNat (cwLen cw).toNat (cwData cw).toNat := by
  have hop : (cwOp cw).toNat = cw.toNat / 2 ^ 36 := by
    rw [cwOp, BitVec.extractLsb'_toNat, Nat.shiftRight_eq_div_pow, Nat.mod_eq_of_lt (by omega)]
  have hz : cwZ cw ≠ 0 ↔ cw.toNat / 2 ^ 35 % 2 = 1 := by
    rw [cwZ, ne_eq, BitVec.toNat_eq, BitVec.extractLsb'_toNat, Nat.shiftRight_eq_div_pow]
    simp
  have hlen : (cwLen cw).toNat = cw.toNat / 2 ^ 32 % 8 := by
    rw [cwLen, BitVec.extractLsb'_toNat, Nat.shiftRight_eq_div_pow]
  have hdata : (cwData cw).toNat = cw.toNat % 2 ^ 32 := by
    rw [cwData, BitVec.extractLsb'_toNat, Nat.shiftRight_zero]
  rw [hop, hz, hlen, hdata]
  rfl

/-- `decode` refuses exactly the words R57 calls illegal. -/
theorem decode_error_iff (cw : CmdWord) : (∃ r, decode cw = .error r) ↔ IllegalWord cw := by
  rw [illegalWord_iff, ← decodeOp_error_iff]
  unfold decode
  split
  · exact iff_of_true ⟨_, rfl⟩ (.inl ‹_›)
  · exact (or_iff_right ‹_›).symm

/-- The ILLEGAL fault (60_exceptions.md R145 line 3). -/
theorem execIllegal_of_unlocked {s : State} (h : s.flt = 0) : execIllegal s = .next (raiseFault .illegal s) :=
  runChecked_illegal h false false id

/-- The answer of a locked core (R145 line 2). -/
theorem execIllegal_of_locked {s : State} (h : s.flt ≠ 0) : execIllegal s = .next (answerLocked s) :=
  runChecked_locked h false false false id

/-- Settles O3: the illegal words field by field; executed, such a word is answered as the illegal word it is. -/
theorem illegalWordsFaultOrAreLocked : Obligations.IllegalWordsFaultOrAreLocked := by
  refine fun cw => ⟨decode_error_iff cw, fun hill s => ?_⟩
  obtain ⟨r, hr⟩ := (decode_error_iff cw).mpr hill
  rw [transaction_of_illegal hr]
  exact ⟨execIllegal_of_unlocked, execIllegal_of_locked⟩

/-! ### A command and its word -/

/-- The word of a command whose operands are not legal is illegal (R57). -/
theorem decode_encode_of_not_wf {i : Instr} (h : i.wf = false) : ∃ r, decode (encode i) = .error r := by
  rw [encode, decode_pack]
  cases i with
  | enc data len | dec data len =>
    refine exists_error_iff.mpr fun j hj => ?_
    obtain ⟨hlen, -⟩ := decodeBlock_eq_ok_iff.mp hj
    cases hlen.symm.trans h
  | rdsk index =>
    refine decodeRdsk_error_iff.mpr (.inr ?_)
    revert index
    decide
  | _ => cases h

/-- Line 3 of R145 comes before the checks a legal word still has to pass. -/
theorem runChecked_not_legal (needsKey short : Bool) (run : State → State) (s : State) :
    runChecked false needsKey short run s = execIllegal s := by
  by_cases h : s.flt = 0
  · rw [execIllegal_of_unlocked h, runChecked_illegal h]
  · rw [execIllegal_of_locked h, runChecked_locked h]

/-- A command whose operands are not legal is executed as an illegal word (log entry 10). -/
theorem exec_of_not_wf {i : Instr} (h : i.wf = false) (s : State) : exec i s = execIllegal s := by
  cases i with
  | enc data len | dec data len =>
    have hlen : WellFormed.lenLegal len = false := h
    simp only [exec, execEnc, execDec, hlen, runChecked_not_legal]
  | rdsk index =>
    rcases subkeyIndex_cases index with ⟨hlegal, -⟩ | ⟨-, hnone⟩
    · cases hlegal.symm.trans h
    · simp only [exec, execRdsk, hnone]
  | _ => cases h

/-- Settles O5: by O1 for a well-formed command, and as an illegal word otherwise. -/
theorem execIsTheEncodedWord : Obligations.ExecIsTheEncodedWord := by
  intro i s
  cases hwf : i.wf with
  | true => rw [transaction_of_decoded (decodeOfEncodeIsTheCommand i hwf)]
  | false =>
    obtain ⟨r, hr⟩ := decode_encode_of_not_wf hwf
    rw [transaction_of_illegal hr, exec_of_not_wf hwf]

/-- Settles O4: each word is that of its command, which is well formed. -/
theorem specWordsDecode : Obligations.SpecWordsDecode := by
  unfold Obligations.SpecWordsDecode
  simp only [decode_eq_ok_iff]
  decide

/-! ### The response word (R51, R63) -/

theorem toNat_rspWord (r : Response) : (rspWord r).toNat = (statusBits r.st).toNat * 2 ^ 32 + r.data.toNat :=
  toNat_append_eq_add _ _

/-- Settles O14, with the five status codes of R63. -/
theorem responseWordCarriesStatusAndData : Obligations.ResponseWordCarriesStatusAndData := by
  intro d
  simp [toNat_rspWord, statusBits, faultBits]

/-! ### The direction bit of the opcode (R53) -/

/-- The start step copies `OP[0]` into `DIR`. -/
theorem startStep_dir {i : Instr} {s : State} (h : startsEngine i s = true) : (startStep i s).dir = (opOf i).getLsbD 0 := by
  cases i with
  | enc data len | dec data len => simp [startStep, opOf]
  | _ => cases h

/-- `OP[0]` of the four diagnostic commands: 0 forward, 1 inverse (R52, R53). -/
theorem opOf_diagnostic_bit_zero (data : Word) :
    (opOf (.sub data)).getLsbD 0 = false ∧ (opOf (.isub data)).getLsbD 0 = true ∧
    (opOf (.prm data)).getLsbD 0 = false ∧ (opOf (.iprm data)).getLsbD 0 = true := by
  simp [opOf]

theorem exec_sub_of_unlocked {s : State} (h : s.flt = 0) (data : Word) :
    exec (.sub data) s = .next (commitResult (substitute Config.tables data) s) :=
  runChecked_run (needsKey := false) h nofun _

theorem exec_isub_of_unlocked {s : State} (h : s.flt = 0) (data : Word) :
    exec (.isub data) s = .next (commitResult (substituteInverse Config.tables data) s) :=
  runChecked_run (needsKey := false) h nofun _

theorem exec_prm_of_unlocked {s : State} (h : s.flt = 0) (data : Word) :
    exec (.prm data) s = .next (commitResult (permUnit Config.tables data false) s) :=
  runChecked_run (needsKey := false) h nofun _

theorem exec_iprm_of_unlocked {s : State} (h : s.flt = 0) (data : Word) :
    exec (.iprm data) s = .next (commitResult (permUnit Config.tables data true) s) :=
  runChecked_run (needsKey := false) h nofun _

/-- Settles O26: `OP[0]` is 0 for the commands whose units run forward, 1 for those whose units run inverse. -/
theorem opcodeBitZeroIsTheDirection : Obligations.OpcodeBitZeroIsTheDirection := by
  refine ⟨fun _ _ h => startStep_dir h, fun s w hf => ?_⟩
  obtain ⟨hsub, hisub, hprm, hiprm⟩ := opOf_diagnostic_bit_zero w
  rw [hsub, hisub, hprm, hiprm]
  exact ⟨exec_sub_of_unlocked hf w, exec_isub_of_unlocked hf w, exec_prm_of_unlocked hf w, exec_iprm_of_unlocked hf w⟩

/-! ### The assembler -/

/-- Settles O41: the six lines are assembled. -/
theorem assemblerLines : Obligations.AssemblerLines := by
  unfold Obligations.AssemblerLines
  decide

end Machine

end Sys2Proof
end

section
/-! PROOFS. The tables, the S-box unit and the permutation unit (40_sbox_perm_units.md R70 to R88): which raw tables are accepted,
what the inverse tables and the inverse units undo, the structure the units keep, and the four diagnostic commands. -/

namespace Sys2Proof

/-! ### Raw tables (R87) -/

/-- A table that sends different indices to different entries repeats none: the converse of `Table.get_injective`. -/
theorem Table.nodup_of_injective {n : Nat} {t : Table n} (h : Function.Injective fun x : Fin n => (t[x] : Fin n)) :
    t.toList.Nodup := by
  have ht : t = Vector.ofFn fun x : Fin n => t[x] := by simp
  rw [ht, Vector.toList_ofFn]
  exact List.nodup_ofFn.mpr h

/-- A raw table is accepted exactly when its entries are `n` numbers below `n`, none repeated. -/
theorem Table.exists_build_iff {n : Nat} (hn : 0 < n) (entries : List Nat) :
    (∃ t, Table.build n entries = some t) ↔ entries.length = n ∧ (∀ x ∈ entries, x < n) ∧ entries.Nodup := by
  have hraw : (0 < n ∧ entries.length = n ∧ entries.all (· < n) ∧ entries.Nodup) ↔
      entries.length = n ∧ (∀ x ∈ entries, x < n) ∧ entries.Nodup := by simp [hn]
  rw [← hraw]
  unfold Table.build
  split
  case isTrue h => exact iff_of_true ⟨_, rfl⟩ h
  case isFalse h => exact iff_of_false nofun h

/-- The table built holds the raw entries. -/
theorem Table.entries_of_build {n : Nat} {entries : List Nat} {t : Table n} (h : Table.build n entries = some t) :
    t.toList.map Fin.val = entries := by
  unfold Table.build at h
  split at h
  case isTrue hraw =>
    obtain ⟨hn, hlen, hlt, hnd⟩ := hraw
    cases h
    apply List.ext_getElem
    · simp [hlen]
    · intro i hi hi'
      have hmem : entries[i] < n := by simpa using List.all_eq_true.mp hlt _ (List.getElem_mem hi')
      simp [List.getElem?_eq_getElem hi', Nat.mod_eq_of_lt hmem]
  case isFalse => cases h

/-- The table built repeats no entry. -/
theorem Table.nodup_of_build {n : Nat} {entries : List Nat} {t : Table n} (hn : 0 < n)
    (h : Table.build n entries = some t) : t.toList.Nodup := by
  obtain ⟨-, -, hnd⟩ := (Table.exists_build_iff hn entries).mp ⟨t, h⟩
  rw [← Table.entries_of_build h] at hnd
  exact hnd.of_map

/-- A configuration is built from its two tables. -/
theorem Tables.build_eq_some_iff {sb pm : List Nat} {t : Tables} :
    Tables.build sb pm = some t ↔ Table.build 16 sb = some t.sbox ∧ Table.build 32 pm = some t.perm := by
  unfold Tables.build
  split
  case h_1 s p hs hp =>
    rw [hs, hp]
    cases t
    simp
  case h_2 hnone => exact iff_of_false nofun fun ⟨hs, hp⟩ => hnone _ _ hs hp

theorem Tables.exists_build_iff (sb pm : List Nat) :
    (∃ t, Tables.build sb pm = some t) ↔ (∃ t, Table.build 16 sb = some t) ∧ ∃ t, Table.build 32 pm = some t := by
  simp only [Tables.build_eq_some_iff]
  exact ⟨fun ⟨t, hs, hp⟩ => ⟨⟨t.sbox, hs⟩, t.perm, hp⟩, fun ⟨⟨s, hs⟩, p, hp⟩ => ⟨⟨s, p⟩, hs, hp⟩⟩

/-- Settles O35, one table at a time. -/
theorem nonBijectiveTablesAreRefused : Obligations.NonBijectiveTablesAreRefused := by
  intro sb pm
  refine ⟨?_, fun t h => ?_⟩
  · rw [Tables.exists_build_iff, Table.exists_build_iff (by decide), Table.exists_build_iff (by decide)]
  · obtain ⟨hs, hp⟩ := Tables.build_eq_some_iff.mp h
    refine ⟨?_, Table.entries_of_build hs, Table.entries_of_build hp⟩
    simp [Tables.wf, Table.nodup_of_build (by decide) hs, Table.nodup_of_build (by decide) hp]

namespace Machine

/-! ### Inverse tables (R71, R73) -/

/-- The table undoes its inverse: without repeats it reaches every index. -/
theorem get_inverseTable {n : Nat} {t : Table n} (h : t.toList.Nodup) (x : Fin n) : t[(inverseTable t)[x]] = x := by
  obtain ⟨y, rfl⟩ := Finite.surjective_of_injective (Table.get_injective h) x
  exact congrArg (fun i : Fin n => (t[i] : Fin n)) (inverseTable_get h y)

theorem inverseTable_nodup {n : Nat} {t : Table n} (h : t.toList.Nodup) : (inverseTable t).toList.Nodup :=
  Table.nodup_of_injective (Function.LeftInverse.injective (g := fun x : Fin n => (t[x] : Fin n)) (get_inverseTable h))

/-- Settles O34. -/
theorem inverseTablesInvert : Obligations.InverseTablesInvert := fun _ _ h =>
  ⟨fun x => ⟨inverseTable_get h x, get_inverseTable h x⟩, inverseTable_nodup h⟩

/-! ### The units undo their inverses (R81) -/

/-- Two words with the same bits are the same word. -/
theorem word_ext_bit {a b : Word} (h : ∀ i : Fin 32, a.getLsbD i = b.getLsbD i) : a = b :=
  BitVec.eq_of_getLsbD_eq fun i hi => h ⟨i, hi⟩

/-- Every bit is bit `PERM[s]` for some `s`, so that words which agree there are the same word. -/
theorem word_ext_perm {t : Tables} (h : t.wf = true) {a b : Word}
    (hab : ∀ s : Fin 32, a.getLsbD (t.perm[s] : Fin 32) = b.getLsbD (t.perm[s] : Fin 32)) : a = b := by
  refine word_ext_bit fun i => ?_
  obtain ⟨s, rfl⟩ := perm_surjective h i
  exact hab s

theorem permute_permuteInverse {t : Tables} (h : t.wf = true) (w : Word) : permute t (permuteInverse t w) = w :=
  word_ext_perm h fun s => by rw [getLsbD_permute h, getLsbD_permuteInverse]

theorem substitute_substituteInverse {t : Tables} (h : t.wf = true) (w : Word) :
    substitute t (substituteInverse t w) = w :=
  word_ext_nib fun k => by rw [nib_substitute, nib_substituteInverse, sboxAt_isboxAt h]

/-- Settles O32: nibble by nibble and bit by bit. -/
theorem unitsUndoTheirInverses : Obligations.UnitsUndoTheirInverses := fun _ h w =>
  ⟨permuteInverse_permute h w, permute_permuteInverse h w, substituteInverse_substitute h w, substitute_substituteInverse h w⟩

/-! ### The structure the units keep (R88) -/

theorem substitute_equal_nibbles (t : Tables) (x : Nibble) :
    substitute t (ofNibbles fun _ => x) = ofNibbles fun _ => sboxAt t x :=
  word_ext_nib fun k => by rw [nib_substitute, nib_ofNibbles, nib_ofNibbles]

/-- A word whose bits are another's, each read from a place of its own, has as many 1 bits. -/
theorem popCount_eq_of_bits_moved {a b : Word} {src : Fin 32 → Fin 32} (hsrc : Function.Injective src)
    (h : ∀ i : Fin 32, a.getLsbD i = b.getLsbD (src i)) : popCount a = popCount b := by
  have hperm := Equiv.Perm.map_finRange_perm (Equiv.ofBijective src (Finite.injective_iff_bijective.mp hsrc))
  have hcount := hperm.countP_eq fun i => b.getLsbD i.val
  rw [List.countP_map] at hcount
  rw [popCount, funext h]
  exact hcount

theorem popCount_permuteInverse {t : Tables} (h : t.wf = true) (w : Word) : popCount (permuteInverse t w) = popCount w :=
  popCount_eq_of_bits_moved (Table.get_injective (Tables.wf_perm h)) (getLsbD_permuteInverse t w)

/-- Undoing the permutation keeps the 1 bits, and so does the permutation. -/
theorem popCount_permute {t : Tables} (h : t.wf = true) (w : Word) : popCount (permute t w) = popCount w := by
  rw [← popCount_permuteInverse h (permute t w), permuteInverse_permute h]

theorem permute_xor {t : Tables} (h : t.wf = true) (a b : Word) : permute t (a ^^^ b) = permute t a ^^^ permute t b :=
  word_ext_perm h fun s => by simp only [BitVec.getLsbD_xor, getLsbD_permute h]

theorem permuteInverse_xor (t : Tables) (a b : Word) :
    permuteInverse t (a ^^^ b) = permuteInverse t a ^^^ permuteInverse t b :=
  word_ext_bit fun s => by simp only [BitVec.getLsbD_xor, getLsbD_permuteInverse]

/-- Bit `p` alone goes to bit `PERM[p]` alone. -/
theorem permute_twoPow {t : Tables} (h : t.wf = true) (p : Fin 32) :
    permute t (BitVec.twoPow 32 p.val) = BitVec.twoPow 32 (t.perm[p]).val := by
  refine word_ext_perm h fun s => ?_
  have hiff : t.perm[p] = t.perm[s] ↔ p = s := (Table.get_injective (Tables.wf_perm h)).eq_iff
  rw [getLsbD_permute h, BitVec.getLsbD_twoPow, BitVec.getLsbD_twoPow]
  simp only [Fin.is_lt, decide_true, Bool.true_and, ← Fin.ext_iff, hiff]

/-- A single bit is some bit's destination, its entry in the inverse table. -/
theorem permuteInverse_twoPow {t : Tables} (h : t.wf = true) (p : Fin 32) :
    permuteInverse t (BitVec.twoPow 32 p.val) = BitVec.twoPow 32 ((inverseTable t.perm)[p]).val := by
  have hp := permute_twoPow h (inverseTable t.perm)[p]
  rw [get_inverseTable (Tables.wf_perm h)] at hp
  rw [← hp, permuteInverse_permute h]

/-- Settles O33, clause by clause. -/
theorem unitsHaveTheirStructure : Obligations.UnitsHaveTheirStructure := fun t h =>
  ⟨substitute_equal_nibbles t, fun w => ⟨popCount_permute h w, popCount_permuteInverse h w⟩,
    fun a b => ⟨permute_xor h a b, permuteInverse_xor t a b⟩, fun p => ⟨permute_twoPow h p, permuteInverse_twoPow h p⟩⟩

/-! ### The diagnostic commands (R83 to R86) -/

/-- Nibble `k` as a number (R75). -/
theorem toNat_nib (w : Word) (k : Fin 8) : (nib w k).toNat = w.toNat / 16 ^ k.val % 16 := by
  rw [nib, BitVec.extractLsb'_toNat, Nat.shiftRight_eq_div_pow, Nat.pow_mul]

/-- The S-box's entry for nibble `k`, as a number. -/
theorem toNat_sboxAt_nib (t : Tables) (w : Word) (k : Fin 8) :
    (sboxAt t (nib w k)).toNat = (t.sbox[w.toNat / 16 ^ k.val % 16]'(Nat.mod_lt _ (by decide))).val := by
  have hentry : (sboxAt t (nib w k)).toNat = (t.sbox[(nib w k).toNat]'(nib w k).isLt).val := rfl
  simp only [hentry, toNat_nib]

/-- Settles O21: the command's result is `substitute` of the operand. -/
theorem subMapsEveryNibble : Obligations.SubMapsEveryNibble := by
  refine fun s w hf => ⟨_, exec_sub_of_unlocked hf w, fun k => ?_⟩
  rw [← toNat_nib, nib_substitute, toNat_sboxAt_nib]

/-- Settles O22: the command's result is `substituteInverse` of the operand, and `SBOX` undoes `ISBOX`. -/
theorem isubUndoesEveryNibble : Obligations.IsubUndoesEveryNibble := by
  refine fun s w hf => ⟨_, exec_isub_of_unlocked hf w, fun k => ?_⟩
  rw [← toNat_sboxAt_nib, nib_substituteInverse, sboxAt_isboxAt Config.tables_wf, toNat_nib]

/-- Settles O23: the command's result is `permute` of the operand. -/
theorem prmMovesEveryBit : Obligations.PrmMovesEveryBit := fun _ w hf =>
  ⟨_, exec_prm_of_unlocked hf w, getLsbD_permute Config.tables_wf w⟩

/-- Settles O24: the command's result is `permuteInverse` of the operand. -/
theorem iprmMovesEveryBitBack : Obligations.IprmMovesEveryBitBack := fun _ w hf =>
  ⟨_, exec_iprm_of_unlocked hf w, getLsbD_permuteInverse Config.tables w⟩

end Machine

end Sys2Proof
end

section
/-! PROOFS. The key schedule (41_key_schedule.md R90 to R98): the rotation as a move of bit positions, counted modulo 32, the
subkeys of a master key, and the commands `KEYLD` and `RDSK`. -/

namespace Sys2Proof.Machine

/-! ### The rotation (R90) -/

/-- The machine's rotation is the library's, for less than a whole turn. -/
theorem rotl32_eq_rotateLeft (v : Word) {n : Nat} (hn : n < 32) : rotl32 v n = v.rotateLeft n := by
  rw [rotl32, BitVec.rotateLeft_def, Nat.mod_eq_of_lt hn]

/-- Bit `i` of the result comes from bit `i - n`. A bit position is a `Fin 32`, so that the subtraction wraps round. -/
theorem getLsbD_rotl32 (v : Word) {n : Nat} (hn : n < 32) (i : Fin 32) :
    (rotl32 v n).getLsbD i = v.getLsbD (i - ⟨n, hn⟩ : Fin 32) := by
  rw [rotl32_eq_rotateLeft v hn, BitVec.getLsbD_rotateLeft_of_le hn]
  by_cases h : i.val < n
  · have hsub : (i - ⟨n, hn⟩ : Fin 32).val = 32 - n + i := by simp only [Fin.val_sub]; omega
    simp [h, hsub]
  · have hsub : (i - ⟨n, hn⟩ : Fin 32).val = i - n := by simp only [Fin.val_sub]; omega
    simp [h, hsub]

/-- Rotating right, bit `i` of the result comes from bit `i + n`. -/
theorem getLsbD_rotateRight_eq_add (v : Word) {n : Nat} (hn : n < 32) (i : Fin 32) :
    (v.rotateRight n).getLsbD i = v.getLsbD (i + ⟨n, hn⟩ : Fin 32) := by
  rw [BitVec.getLsbD_rotateRight_of_lt hn]
  by_cases h : i.val < 32 - n
  · have hadd : (i + ⟨n, hn⟩ : Fin 32).val = n + i := by simp only [Fin.val_add]; omega
    simp [h, hadd]
  · have hadd : (i + ⟨n, hn⟩ : Fin 32).val = i - (32 - n) := by simp only [Fin.val_add]; omega
    simp [h, hadd]

@[simp] theorem rotl32_zero (v : Word) : rotl32 v 0 = v :=
  word_ext_bit fun i => by rw [getLsbD_rotl32 v (by decide), Fin.mk_zero, sub_zero]

theorem popCount_rotl32 (v : Word) {n : Nat} (hn : n < 32) : popCount (rotl32 v n) = popCount v :=
  popCount_eq_of_bits_moved sub_left_injective (getLsbD_rotl32 v hn)

theorem rotl32_xor (a b : Word) {n : Nat} (hn : n < 32) : rotl32 (a ^^^ b) n = rotl32 a n ^^^ rotl32 b n :=
  word_ext_bit fun i => by simp only [BitVec.getLsbD_xor, getLsbD_rotl32 _ hn]

theorem rotateRight_rotl32 (v : Word) {n : Nat} (hn : n < 32) : (rotl32 v n).rotateRight n = v :=
  word_ext_bit fun i => by rw [getLsbD_rotateRight_eq_add _ hn, getLsbD_rotl32 v hn, add_sub_cancel_right]

/-- Rotations add up, for less than a whole turn in all. -/
theorem rotl32_rotl32 (v : Word) {m n : Nat} (h : m + n < 32) : rotl32 (rotl32 v m) n = rotl32 v (m + n) := by
  have hm : m < 32 := by omega
  have hn : n < 32 := by omega
  have hadd : (⟨m + n, h⟩ : Fin 32) = ⟨n, hn⟩ + ⟨m, hm⟩ := by
    simp only [Fin.ext_iff, Fin.val_add]
    omega
  refine word_ext_bit fun i => ?_
  rw [getLsbD_rotl32 _ hn, getLsbD_rotl32 v hm, getLsbD_rotl32 v h, hadd, sub_sub]

/-- Settles O30: position `(j + n) mod 32` is `j + n` in `Fin 32`, and its bit comes from `j + n - n`. -/
theorem rotationMovesEveryBit : Obligations.RotationMovesEveryBit := by
  refine ⟨fun v n _ hle => ?_, rotl32_zero⟩
  have hn : n < 32 := by omega
  refine ⟨fun j hj => ?_, popCount_rotl32 v hn⟩
  have hbit := getLsbD_rotl32 v hn (⟨j, hj⟩ + ⟨n, hn⟩)
  rwa [add_sub_cancel_right, Fin.val_add] at hbit

/-! ### The subkeys (R91 to R96) -/

theorem roundConst_values : roundConst 0 = 0xA5A5A5A5 ∧ roundConst 1 = 0xA5A5A5A4 ∧ roundConst 2 = 0xA5A5A5A7 := by
  decide

theorem subkey_eq_rotateLeft (k : Word) (i : Fin 3) : subkey k i = k.rotateLeft (i.val + 1) ^^^ roundConst i := by
  rw [subkey, rotl32_eq_rotateLeft k (by omega)]

/-- Settles O29, with the three round constants as numbers. -/
theorem subkeySequenceWrittenOut : Obligations.SubkeySequenceWrittenOut := by
  intro k
  obtain ⟨h0, h1, h2⟩ := roundConst_values
  rw [← h0, ← h1, ← h2]
  exact ⟨subkey_eq_rotateLeft k 0, subkey_eq_rotateLeft k 1, subkey_eq_rotateLeft k 2⟩

/-- The round constant taken off, a subkey is its key rotated. -/
@[simp] theorem subkey_xor_roundConst (k : Word) (i : Fin 3) : subkey k i ^^^ roundConst i = rotl32 k (i.val + 1) := by
  rw [subkey, BitVec.xor_assoc, BitVec.xor_self, BitVec.xor_zero]

theorem subkey_xor (a b : Word) (i : Fin 3) : subkey (a ^^^ b) i = subkey a i ^^^ subkey b i ^^^ roundConst i := by
  rw [BitVec.xor_assoc, subkey_xor_roundConst, subkey, subkey, rotl32_xor a b (by omega)]
  ac_rfl

theorem rotateRight_subkey (k : Word) (i : Fin 3) : (subkey k i ^^^ roundConst i).rotateRight (i.val + 1) = k := by
  rw [subkey_xor_roundConst, rotateRight_rotl32 k (by omega)]

/-- Every subkey is the first one rotated, up to the round constants. -/
theorem subkey_eq_rotl32_first (k : Word) (i : Fin 3) :
    subkey k i = rotl32 (subkey k 0 ^^^ roundConst 0) i.val ^^^ roundConst i := by
  have hi : (0 : Fin 3).val + 1 + i.val = i.val + 1 := by rw [Fin.val_zero]; omega
  rw [subkey_xor_roundConst, rotl32_rotl32 k (by omega), hi, subkey]

/-- Settles O31, clause by clause. -/
theorem subkeysDetermineTheKey : Obligations.SubkeysDetermineTheKey :=
  ⟨subkey_xor, rotateRight_subkey, fun k => ⟨subkey_eq_rotl32_first k 1, subkey_eq_rotl32_first k 2⟩⟩

/-! ### The commands KEYLD and RDSK (R97, R98) -/

/-- Settles O17, with the subkeys as O29 writes them out. -/
theorem keyldStoresTheSubkeys : Obligations.KeyldStoresTheSubkeys := by
  intro s k hf
  obtain ⟨h0, h1, h2⟩ := subkeySequenceWrittenOut k
  rw [exec_keyld_of_unlocked hf, ← h0, ← h1, ← h2]
  rfl

theorem exec_rdsk_of_unlocked {s : State} (h : s.flt = 0) (hk : s.kv = true) {index : BitVec 2} {i : Fin 3}
    (hi : subkeyIndex index = some i) : exec (.rdsk index) s = .next (commitResult (subkeys s i) s) := by
  simp only [exec, execRdsk, hi]
  exact runChecked_run h (fun _ => hk) _

/-- Settles O18, one legal index after the other. -/
theorem rdskReadsTheSubkey : Obligations.RdskReadsTheSubkey := fun _ hf hk =>
  ⟨exec_rdsk_of_unlocked hf hk (i := 0) rfl, exec_rdsk_of_unlocked hf hk (i := 1) rfl, exec_rdsk_of_unlocked hf hk (i := 2) rfl⟩

end Sys2Proof.Machine
end

section
/-! PROOFS. The round function and its inverse (42_round_function.md R107): the forward round after the inverse one, beside
`roundInv_roundFwd`. -/

namespace Sys2Proof.Machine

theorem roundFwd_roundInv {t : Tables} (h : t.wf = true) (w sk : Word) : roundFwd t (roundInv t w sk) sk = w := by
  rw [roundFwd, roundInv, substitute_substituteInverse h, permute_permuteInverse h, BitVec.xor_assoc, BitVec.xor_self,
    BitVec.xor_zero]

/-- Settles O36: the units undo their inverses (R81), and the subkey XORed twice cancels. -/
theorem roundsUndoEachOther : Obligations.RoundsUndoEachOther := fun _ h w sk =>
  ⟨roundInv_roundFwd h w sk, roundFwd_roundInv h w sk⟩

end Sys2Proof.Machine
end

section
/-! PROOFS. The block commands (43_block_cipher.md R124, R125): what they write, that they undo each other (R118) and read only the
subkeys and the operand (R126), and the engine that computes them one round a step (R119 to R122). -/

namespace Sys2Proof.Machine

/-! ### ENC and DEC as whole commands (R124, R125) -/

theorem exec_enc_of_unlocked {s : State} (h : s.flt = 0) (hk : s.kv = true) (data : Word) {len : BitVec 3}
    (hlen : WellFormed.lenLegal len = true) :
    exec (.enc data len) s = .next (encryptBlock Config.tables data len s) := by
  simp only [exec, execEnc, hlen]
  exact runChecked_run h (fun _ => hk) _

theorem exec_dec_of_unlocked {s : State} (h : s.flt = 0) (hk : s.kv = true) (data : Word) :
    exec (.dec data 4) s = .next (decryptBlock Config.tables data s) :=
  runChecked_run h (fun _ => hk) _

/-- The masks of 20_memory.md R35, chosen by `LEN`. -/
theorem padMask_of_legal {len : BitVec 3} (h1 : 1 ≤ len.toNat) (h4 : len.toNat ≤ 4) :
    padMask len = if len = 1 then 0xFF000000 else if len = 2 then 0xFFFF0000 else if len = 3 then 0xFFFFFF00 else 0xFFFFFFFF := by
  rcases len_cases_of_legal h1 h4 with rfl | rfl | rfl | rfl <;> rfl

/-- Settles O19: `encrypt_word` is its three rounds (R115), on the operand under its mask. -/
theorem encWritesTheCiphertext : Obligations.EncWritesTheCiphertext := by
  intro s data len hf hk h1 h4
  rw [exec_enc_of_unlocked hf hk data (decide_eq_true ⟨h1, h4⟩), ← padMask_of_legal h1 h4]
  rfl

/-- Settles O20: `decrypt_word` is its three inverse rounds (R116). -/
theorem decWritesThePlaintext : Obligations.DecWritesThePlaintext := by
  intro s data hf hk
  rw [exec_dec_of_unlocked hf hk]
  rfl

/-! ### ENC and DEC undo each other (R118) -/

/-- Three inverse rounds undone, the last one first, beside `decryptWord_encryptWord`. -/
theorem encryptWord_decryptWord {t : Tables} (h : t.wf = true) (sk : Fin 3 → Word) (c : Word) :
    encryptWord t sk (decryptWord t sk c) = c := by
  simp [decryptWord, encryptWord, roundFwd_roundInv h]

/-- A full block is not padded (20_memory.md R35). -/
@[simp] theorem padded_full (w : Word) : padded w 4 = w := by
  rw [padded, show padMask 4 = BitVec.allOnes 32 from rfl, BitVec.and_allOnes]

/-- Settles O27: neither command writes the subkeys, so the second undoes the first under the same ones. -/
theorem encAndDecUndoEachOther : Obligations.EncAndDecUndoEachOther := by
  intro s w hf hk
  constructor
  · refine ⟨_, _, exec_enc_of_unlocked hf hk w rfl,
      exec_dec_of_unlocked (s := encryptBlock Config.tables w 4 s) hf hk _, ?_⟩
    have hback : decryptWord Config.tables (subkeys s) (encryptWord Config.tables (subkeys s) (padded w 4)) = w := by
      rw [padded_full, decryptWord_encryptWord Config.tables_wf]
    exact ⟨hback, rfl, congrArg (some ∘ Response.mk .ok) hback⟩
  · refine ⟨_, _, exec_dec_of_unlocked hf hk w,
      exec_enc_of_unlocked (s := decryptBlock Config.tables w s) hf hk _ rfl, ?_⟩
    have hback : encryptWord Config.tables (subkeys s) (padded (decryptWord Config.tables (subkeys s) w) 4) = w := by
      rw [padded_full, encryptWord_decryptWord Config.tables_wf]
    exact ⟨hback, rfl, congrArg (some ∘ Response.mk .ok) hback⟩

/-! ### The result depends on the subkeys and the operand only (R126) -/

/-- Two unlocked cores with a key give the same answer to a command whose own rule gives the same result on both: the checks
of 60_exceptions.md R145 come out alike. -/
theorem runChecked_same_result {legal needsKey short : Bool} {run : State → State} {s s' : State} (hf : s.flt = 0)
    (hf' : s'.flt = 0) (hk : s.kv = true) (hk' : s'.kv = true) (hdout : (run s).dout = (run s').dout)
    (hrsp : (run s).rsp = (run s').rsp) :
    ∃ t t', runChecked legal needsKey short run s = .next t ∧ runChecked legal needsKey short run s' = .next t' ∧
      t.dout = t'.dout ∧ t.rsp = t'.rsp := by
  match legal, short with
  | false, _ => exact ⟨_, _, runChecked_illegal hf _ _ _, runChecked_illegal hf' _ _ _, rfl, rfl⟩
  | true, true => exact ⟨_, _, runChecked_short hf hk _ _, runChecked_short hf' hk' _ _, rfl, rfl⟩
  | true, false => exact ⟨_, _, runChecked_run hf (fun _ => hk) _, runChecked_run hf' (fun _ => hk') _, hdout, hrsp⟩

/-- Settles O28: the block functions read the subkeys and the operand. -/
theorem blockResultDependsOnKeyAndOperandOnly : Obligations.BlockResultDependsOnKeyAndOperandOnly := by
  intro s s' data len hf hf' hk hk' h0 h1 h2
  have hsk : subkeys s = subkeys s' := subkeys_congr h0 h1 h2
  exact ⟨runChecked_same_result hf hf' hk hk' (by simp [encryptBlock, hsk]) (by simp [encryptBlock, hsk]),
    runChecked_same_result hf hf' hk hk' (by simp [decryptBlock, hsk]) (by simp [decryptBlock, hsk])⟩

/-! ### The engine (R119 to R122) -/

/-- Settles O45: from the start step on, `RND` and `DIR` are numbers, and each round step computes. -/
theorem engineCountsTheSubkeys : Obligations.EngineCountsTheSubkeys := by
  intro t s p
  constructor
  · simp [isLastRound, roundUnit, subkeys]
  · simp [isLastRound, roundUnit, subkeys]

/-- From the start step, the last round step is the third (R121). -/
theorem roundsBeforeLast_two_startBlock (t : Tables) (dir : Bool) (p : Word) (s : State) :
    roundsBeforeLast t 2 (startBlock dir p s) = roundStep t (roundStep t (startBlock dir p s)) := by
  cases dir <;> simp [roundsBeforeLast, isLastRound]

/-- What a result's commit writes (20_memory.md R32, 10_state.md R14). -/
theorem commitResult_eq (r : Word) (s : State) :
    commitResult r s = { s with dout := r, dv := true, busy := false, accepted := 0, due := 0, rsp := some ⟨.ok, r⟩ } := rfl

/-- Settles O46: the commit makes up for the round steps not taken before it, and ends with the third. -/
theorem engineCommitCopiesTheLastRound : Obligations.EngineCommitCopiesTheLastRound := by
  intro t s p dir n
  rw [finishBlock_rounds, finishBlock, roundsBeforeLast_two_startBlock]
  exact commitResult_eq _ _

end Sys2Proof.Machine
end

section
/-! PROOFS. A command run clock edge by clock edge is the whole transaction (43_block_cipher.md R128, 20_memory.md R32, R33). What a
word does depends neither on the port's fields nor on the counter, and, when it starts the engine, not on the engine's registers; so
acceptance and the edges before the commit leave it as it is, and the commit edge does it. -/

namespace Sys2Proof.Machine

/-! ### What a command does not read -/

/-- Every command ends with a response, which overwrites the port's fields, so their values before do not show. -/
theorem exec_port_fields (i : Instr) (s : State) (busy : Bool) (accepted : CmdWord) (due : Nat) (rsp : Option Response) :
    exec i { s with busy := busy, accepted := accepted, due := due, rsp := rsp } = exec i s := by
  cases i <;> rfl

theorem transaction_port_fields (cw : CmdWord) (s : State) (busy : Bool) (accepted : CmdWord) (due : Nat)
    (rsp : Option Response) :
    transaction cw { s with busy := busy, accepted := accepted, due := due, rsp := rsp } = transaction cw s := by
  cases h : decode cw with
  | ok i => rw [transaction_of_decoded h, transaction_of_decoded h, exec_port_fields]
  | error r =>
    rw [transaction_of_illegal h, transaction_of_illegal h]
    rfl

/-- Line 5 of R145, for a command that passes the key's check whether or not it needs one. -/
theorem runChecked_short_of_key {s : State} (h : s.flt = 0) {needsKey : Bool} (hk : needsKey = true → s.kv = true)
    (run : State → State) : runChecked true needsKey true run s = .next (raiseFault .shortblk s) := by
  cases needsKey with
  | true => exact runChecked_short h (hk rfl) true run
  | false => simp [runChecked, isLocked, h]

/-- The execution procedure does not look at the counter, if the command's own rule does not. -/
theorem runChecked_tick {legal needsKey short : Bool} {run : State → State} {s u : State} {n : Nat}
    (hrun : run { s with tick := n } = { run s with tick := n }) (h : runChecked legal needsKey short run s = .next u) :
    runChecked legal needsKey short run { s with tick := n } = .next { u with tick := n } := by
  rcases runChecked_cases h with ⟨hf, rfl⟩ | ⟨hf, rfl, rfl⟩ | ⟨hf, rfl, rfl, hk, rfl⟩ | ⟨hf, rfl, hk, rfl, rfl⟩ |
    ⟨hf, rfl, hk, rfl, rfl⟩
  · exact runChecked_locked (s := { s with tick := n }) hf _ _ _ _
  · exact runChecked_illegal (s := { s with tick := n }) hf _ _ _
  · exact runChecked_nokey (s := { s with tick := n }) hf hk _ _
  · exact runChecked_short_of_key (s := { s with tick := n }) hf hk _
  · rw [runChecked_run (s := { s with tick := n }) hf hk, hrun]

/-- A command neither reads nor writes the counter (log entry 5). -/
theorem exec_tick {i : Instr} {s u : State} (n : Nat) (h : exec i s = .next u) :
    exec i { s with tick := n } = .next { u with tick := n } := by
  cases i with
  | clr => cases h; rfl
  | rdsk index =>
    simp only [exec, execRdsk] at h ⊢
    split at h <;> exact runChecked_tick rfl h
  | nop | keyld key | enc data len | dec data len | sub data | isub data | prm data | iprm data => exact runChecked_tick rfl h

theorem transaction_tick {cw : CmdWord} {s u : State} (n : Nat) (h : transaction cw s = .next u) :
    transaction cw { s with tick := n } = .next { u with tick := n } := by
  rcases transaction_cases h with ⟨i, hi, he⟩ | ⟨r, hr, he⟩
  · rw [transaction_of_decoded hi, exec_tick n he]
  · rw [transaction_of_illegal hr]
    exact runChecked_tick rfl he

/-! ### A block operation the engine runs -/

theorem engineRunning_iff (s : State) : engineRunning s = true ↔ ∃ i, decode s.accepted = .ok i ∧ startsEngine i s = true := by
  unfold engineRunning
  split <;> simp_all

/-- The engine run from its start step gives what the whole command gives (R128). -/
theorem exec_of_startsEngine {i : Instr} {s : State} (h : startsEngine i s = true) :
    exec i s = .next (finishBlock Config.tables (startStep i s)) := by
  obtain ⟨hf, hk⟩ := startsEngine_unlocked h
  cases i with
  | enc data len =>
    have hlen : WellFormed.lenLegal len = true := by
      simp only [startsEngine, Bool.and_eq_true] at h
      exact h.1.2
    rw [exec_enc_of_unlocked hf hk data hlen]
    exact congrArg _ (finishBlock_forward _ _ s).symm
  | dec data len =>
    obtain rfl : len = 4 := by
      simp only [startsEngine, Bool.and_eq_true, decide_eq_true_eq] at h
      exact h.2
    rw [exec_dec_of_unlocked hf hk data]
    exact congrArg _ (finishBlock_reverse _ _ s).symm
  | _ => cases h

/-- The start step overwrites the engine's registers, so their values before do not show in a block operation's result. -/
theorem exec_engine_registers {i : Instr} {s : State} (h : startsEngine i s = true) (w : Word) (rnd : Fin 3) (dir : Bool) :
    exec i { s with w := w, rnd := rnd, dir := dir } = exec i s := by
  have h' : startsEngine i { s with w := w, rnd := rnd, dir := dir } = true := (startsEngine_congr rfl rfl i).trans h
  obtain ⟨d, p, hstart⟩ := startStep_eq_startBlock h
  rw [exec_of_startsEngine h, exec_of_startsEngine h', hstart, hstart]
  rfl

theorem transaction_engine_registers {s : State} (h : engineRunning s = true) (w : Word) (rnd : Fin 3) (dir : Bool) :
    transaction s.accepted { s with w := w, rnd := rnd, dir := dir } = transaction s.accepted s := by
  obtain ⟨i, hi, hstart⟩ := (engineRunning_iff s).mp h
  rw [transaction_of_decoded hi, transaction_of_decoded hi, exec_engine_registers hstart]

/-! ### Acceptance, the edges before the commit, and the commit edge -/

/-- A word that does not start the engine is accepted and nothing else (R123). -/
theorem acceptWord_of_not_running {cw : CmdWord} {s : State} (h : engineRunning (beginCommand cw s) = false) :
    acceptWord cw s = beginCommand cw s := by
  cases hd : decode cw with
  | ok i =>
    have hstart : startsEngine i s = false := by
      rw [← startsEngine_congr (s := s) (t := beginCommand cw s) rfl rfl]
      simpa [engineRunning, hd] using h
    simp [acceptWord, hd, hstart]
  | error r => simp [acceptWord, hd]

/-- The word accepted does on the busy core what it would have done at once. -/
theorem transaction_acceptWord (cw : CmdWord) (s : State) : transaction cw (acceptWord cw s) = transaction cw s := by
  have hbegin : transaction cw (beginCommand cw s) = transaction cw s := transaction_port_fields cw s _ _ _ s.rsp
  cases hrun : engineRunning (beginCommand cw s) with
  | true =>
    obtain ⟨w, rnd, dir, hframe⟩ := acceptWord_frame cw s
    rw [hframe, ← hbegin]
    exact transaction_engine_registers hrun w rnd dir
  | false => rw [acceptWord_of_not_running hrun, hbegin]

/-- An edge before the commit does not change what the word in progress will do. -/
theorem transaction_waitEdge (s : State) : transaction s.accepted (waitEdge s) = transaction s.accepted s := by
  cases hrun : engineRunning s with
  | true =>
    obtain ⟨w, rnd, hframe⟩ := waitEdge_frame s
    rw [hframe, ← transaction_engine_registers hrun w rnd s.dir]
    exact transaction_port_fields s.accepted { s with w := w, rnd := rnd } _ _ _ _
  | false =>
    simp only [waitEdge, hrun]
    exact transaction_port_fields s.accepted s _ _ _ _

/-- The commit gives what the whole transaction gives, on the engine too (R128). -/
theorem commitWord_eq_transaction {s : State} (h : EngineInv s) (hb : s.busy = true) :
    commitWord s = transaction s.accepted s := by
  cases hrun : engineRunning s with
  | true =>
    obtain ⟨i, hi, hstart⟩ := (engineRunning_iff s).mp hrun
    obtain ⟨n, hn⟩ := h hb i hi hstart
    have hfinish := finishBlock_rounds Config.tables n (startStep i s)
    rw [hn] at hfinish
    rw [commitWord, if_pos hrun, transaction_of_decoded hi, exec_of_startsEngine hstart, hfinish]
  | false => simp [commitWord, hrun]

/-- What `clockEdge` does first at every edge: the response shown is gone (20_memory.md R32), and the counter is one further. -/
def nextCycle (s : State) : State := { s with rsp := none, tick := s.tick + 1 }

theorem clockEdge_commits {s : State} (hb : s.busy = true) (hd : s.due = 1) (valid : Bool) (cw : CmdWord) :
    clockEdge valid cw s = commitWord (nextCycle s) := by
  simp [clockEdge, hb, hd, nextCycle]

theorem EngineInv.nextCycle {s : State} (h : EngineInv s) : EngineInv (nextCycle s) :=
  h.congr rfl ⟨rfl, rfl, rfl⟩ rfl rfl rfl rfl

theorem transaction_nextCycle {cw : CmdWord} {s u : State} (h : transaction cw s = .next u) :
    transaction cw (nextCycle s) = .next { u with tick := s.tick + 1 } := by
  rw [← transaction_port_fields cw s s.busy s.accepted s.due none] at h
  exact transaction_tick _ h

/-- The commit edge is the transaction of the accepted word, one tick later. -/
theorem commitEdge_eq_transaction {s u : State} (h : EngineInv s) (hb : s.busy = true) (hd : s.due = 1) (valid : Bool)
    (cw : CmdWord) (hu : transaction s.accepted s = .next u) :
    clockEdge valid cw s = .next { u with tick := s.tick + 1 } := by
  rw [clockEdge_commits hb hd, commitWord_eq_transaction h.nextCycle hb]
  exact transaction_nextCycle hu

/-- Settles O48: of the invariants, the engine's is the one it needs. -/
theorem commitEdgeIsTheTransaction : Obligations.CommitEdgeIsTheTransaction := by
  intro s valid cw h hb hd
  obtain ⟨u, hu⟩ := transaction_next s.accepted s
  exact ⟨_, u, commitEdge_eq_transaction h.engine hb hd valid cw hu, hu, rfl⟩

/-! ### From acceptance to commit -/

theorem SameVisible.trans {s t u : State} (h : SameVisible s t) (h' : SameVisible t u) : SameVisible s u := by
  obtain ⟨h0, h1, h2, hkv, hdout, hdv, hflt⟩ := h
  obtain ⟨h0', h1', h2', hkv', hdout', hdv', hflt'⟩ := h'
  exact ⟨h0'.trans h0, h1'.trans h1, h2'.trans h2, hkv'.trans hkv, hdout'.trans hdout, hdv'.trans hdv, hflt'.trans hflt⟩

/-- A busy core with `n` edges before its commit edge, whose host presents nothing more, and whose word in progress, executed
whole, gives `u` but for the counter. -/
structure Waiting (u : State) (n : Nat) (s : State) : Prop where
  busy : s.busy = true
  silent : s.rsp = none
  due : s.due = n + 1
  host : s.host = []
  engine : EngineInv s
  result : ∃ k, transaction s.accepted s = .next { u with tick := k }

/-- The edge that accepts a word makes an idle core wait for what the word executed whole gives. -/
theorem waiting_of_accepted {s u : State} {cw : CmdWord} (hb : s.busy = false) (hh : s.host = [])
    (hu : transaction cw s = .next u) :
    ∃ n t, clockEdge true cw s = .next t ∧ Waiting u n t ∧ SameVisible s t := by
  obtain ⟨t, ht, hbusy, hacc, hdue, hrsp, hsame, hhost⟩ := acceptanceTakesTheWord.1 s cw hb
  obtain rfl : acceptWord cw (nextCycle s) = t := Host.Outcome.next.inj ((clockEdge_of_idle hb cw).symm.trans ht)
  refine ⟨_, _, ht, ⟨hbusy, hrsp, (Nat.sub_add_cancel hdue).symm, hhost.trans hh, acceptWord_engineInv _ _, ?_⟩, hsame⟩
  exact ⟨s.tick + 1, by rw [hacc, transaction_acceptWord, transaction_nextCycle hu]⟩

/-- An edge before the commit edge brings the commit one edge nearer, and a host sees nothing of it. -/
theorem Waiting.step_waits {u s : State} {n : Nat} (h : Waiting u (n + 1) s) :
    ∃ t, step s = .next t ∧ Waiting u n t ∧ SameVisible s t := by
  have hd : 2 ≤ s.due := by rw [h.due]; omega
  obtain ⟨t, ht, hsame, hbusy, hrsp, hacc, hdue, hhost⟩ := busyEdgesAreSilent s false 0 h.busy hd
  obtain rfl : waitEdge (nextCycle s) = t := Host.Outcome.next.inj ((clockEdge_of_waiting h.busy hd false 0).symm.trans ht)
  refine ⟨_, (step_of_no_event h.host).trans ht, ⟨hbusy, hrsp, ?_, hhost.trans h.host, waitEdge_engineInv h.engine.nextCycle, ?_⟩,
    hsame⟩
  · exact Nat.add_right_cancel (hdue.trans h.due)
  · obtain ⟨k, hk⟩ := h.result
    have hnext := transaction_nextCycle hk
    refine ⟨s.tick + 1, ?_⟩
    rw [hacc]
    exact (transaction_waitEdge (nextCycle s)).trans hnext

/-- The commit edge gives the result waited for. -/
theorem Waiting.step_commits {u s : State} (h : Waiting u 0 s) : ∃ k, step s = .next { u with tick := k } := by
  obtain ⟨k, hk⟩ := h.result
  have hedge := commitEdge_eq_transaction h.engine h.busy h.due false 0 hk
  exact ⟨s.tick + 1, (step_of_no_event h.host).trans hedge⟩

/-- The core commits after the edges due (70_reset_and_hazards.md R178). -/
theorem Waiting.run_commits {u s : State} {n : Nat} (h : Waiting u n s) :
    ∃ k, Sys2Proof.core.run (n + 1) s = .next { u with tick := k } := by
  induction n generalizing s with
  | zero =>
    obtain ⟨k, hk⟩ := h.step_commits
    exact ⟨k, core_run_step hk⟩
  | succ n ih =>
    obtain ⟨t, ht, hwait, _⟩ := h.step_waits
    obtain ⟨k, hk⟩ := ih hwait
    exact ⟨k, (core_run_step ht).trans hk⟩

/-- Until then it is busy, and nothing a host can observe changes (R123). -/
theorem Waiting.run_silent {u s : State} {n m : Nat} (h : Waiting u n s) (hm : m ≤ n) :
    ∃ v, Sys2Proof.core.run m s = .next v ∧ SameVisible s v ∧ v.busy = true ∧ v.rsp = none := by
  induction m generalizing n s with
  | zero => exact ⟨s, rfl, .refl s, h.busy, h.silent⟩
  | succ m ih =>
    obtain ⟨n, rfl⟩ := Nat.exists_eq_add_of_le' (Nat.zero_lt_of_lt hm)
    obtain ⟨t, ht, hwait, hsame⟩ := h.step_waits
    obtain ⟨v, hv, hsame', hsilent⟩ := ih hwait (Nat.le_of_succ_le_succ hm)
    exact ⟨v, (core_run_step ht).trans hv, hsame.trans hsame', hsilent⟩

/-- Settles O47: the edge that accepts the word, the edges waited, the commit edge. -/
theorem edgeByEdgeIsTheTransaction : Obligations.EdgeByEdgeIsTheTransaction := by
  intro s cw hb
  obtain ⟨u, hu⟩ := transaction_next cw { s with host := [] }
  obtain ⟨n, a, ha, hwait, hsame⟩ := waiting_of_accepted (s := { s with host := [] }) hb rfl hu
  have hfirst : step { s with host := [.edge true cw] } = .next a := (step_edge rfl).trans ha
  have hwhole : step { s with host := [.command cw] } = .next u :=
    (step_command_of_idle (s := { s with host := [.command cw] }) rfl hb).trans hu
  obtain ⟨k, hk⟩ := hwait.run_commits
  refine ⟨n, _, u, (core_run_step hfirst).trans hk, hwhole, rfl, fun m hm => ?_⟩
  obtain ⟨v, hv, hsame', hbusy, hrsp⟩ := hwait.run_silent hm
  exact ⟨v, (core_run_step hfirst).trans hv, hsame.trans hsame', hbusy, hrsp⟩

end Sys2Proof.Machine
end

section
/-! PROOFS. The control commands NOP and CLR (44_control.md R135, R136). -/

namespace Sys2Proof.Machine

/-- Settles O15: past the lock, `NOP` is the response of R135 and nothing else. -/
theorem nopOnlyResponds : Obligations.NopOnlyResponds := by
  intro s hf
  rw [exec_nop_of_unlocked hf]
  rfl

/-- `CLR` passes the lock: the one command that runs in every state (60_exceptions.md R145 lines 1 and 6). -/
theorem exec_clr (s : State) : exec .clr s = .next (clearSession s) := rfl

/-- Settles O16: what `CLR` leaves is `clearSession s`, with no condition on `s`. -/
theorem clrRestoresTheResetState : Obligations.ClrRestoresTheResetState := fun s =>
  ⟨clearSession s, exec_clr s, coreIsReset_clearSession s, clearSession_accepted s, clearSession_due s, clearSession_rsp s,
    clearSession_tick s, clearSession_host s⟩

end Sys2Proof.Machine
end

section
/-! PROOFS. The faults and the lock (60_exceptions.md R141 to R149): what a command does on an unlocked core by the checks of R145,
what a locked core answers, and that no step but `CLR` or reset changes anything a locked core holds. -/

namespace Sys2Proof.Machine

/-! ### The checks of R145 on an unlocked core -/

/-- A legal command that needs a key raises NOKEY without one (R142). -/
theorem exec_nokey {i : Instr} {s : State} (hf : s.flt = 0) (hk : s.kv = false) (hwf : i.wf = true) (hi : NeedsKey i) :
    exec i s = .next (raiseFault .nokey s) := by
  rcases hi with ⟨d, n, rfl⟩ | ⟨d, n, rfl⟩ | ⟨x, rfl⟩
  · have hlen : WellFormed.lenLegal n = true := hwf
    simp only [exec, execEnc, hlen, runChecked_nokey hf hk]
  · have hlen : WellFormed.lenLegal n = true := hwf
    simp only [exec, execDec, hlen, runChecked_nokey hf hk]
  · rcases subkeyIndex_cases x with ⟨-, j, hj, -⟩ | ⟨hillegal, -⟩
    · simp only [exec, execRdsk, hj, runChecked_nokey hf hk]
    · cases hwf.symm.trans hillegal

/-- With a key, a `DEC` of a legal length other than 4 raises SHORTBLK (R143). -/
theorem exec_shortblk {i : Instr} {s : State} (hf : s.flt = 0) (hk : s.kv = true) (hwf : i.wf = true) (hi : ShortDec i) :
    exec i s = .next (raiseFault .shortblk s) := by
  obtain ⟨d, n, rfl, hn⟩ := hi
  have hlen : WellFormed.lenLegal n = true := hwf
  simp only [exec, execDec, hlen, decide_eq_true hn, runChecked_short hf hk]

/-- A legal command that passes the key's and the length's checks ends OK, and the core stays unlocked. -/
theorem exec_ok {i : Instr} {s : State} (hf : s.flt = 0) (hwf : i.wf = true) (hk : NeedsKey i → s.kv = true)
    (hshort : ¬ ShortDec i) : ∃ t d, exec i s = .next t ∧ t.rsp = some ⟨.ok, d⟩ ∧ t.flt = 0 := by
  cases i with
  | nop => exact ⟨_, _, exec_nop_of_unlocked hf, rfl, hf⟩
  | keyld key => exact ⟨_, _, exec_keyld_of_unlocked hf key, rfl, hf⟩
  | enc data len => exact ⟨_, _, exec_enc_of_unlocked hf (hk (.inl ⟨_, _, rfl⟩)) data hwf, rfl, hf⟩
  | dec data len =>
    obtain rfl : len = 4 := not_not.mp fun hlen => hshort ⟨data, len, rfl, hlen⟩
    exact ⟨_, _, exec_dec_of_unlocked hf (hk (.inr (.inl ⟨_, _, rfl⟩))) data, rfl, hf⟩
  | clr => exact ⟨_, _, exec_clr s, rfl, rfl⟩
  | rdsk index =>
    rcases subkeyIndex_cases index with ⟨-, j, hj, -⟩ | ⟨hillegal, -⟩
    · exact ⟨_, _, exec_rdsk_of_unlocked hf (hk (.inr (.inr ⟨_, rfl⟩))) hj, rfl, hf⟩
    · cases hwf.symm.trans hillegal
  | sub data => exact ⟨_, _, exec_sub_of_unlocked hf data, rfl, hf⟩
  | isub data => exact ⟨_, _, exec_isub_of_unlocked hf data, rfl, hf⟩
  | prm data => exact ⟨_, _, exec_prm_of_unlocked hf data, rfl, hf⟩
  | iprm data => exact ⟨_, _, exec_iprm_of_unlocked hf data, rfl, hf⟩

/-- Settles O11, check by check; each fault's entry is `raiseFault`, and a word that decodes is well formed (O2). -/
theorem faultPriorityAndEntry : Obligations.FaultPriorityAndEntry := by
  intro s cw hf entry
  refine ⟨?_, fun i hi => ?_⟩
  · rintro ⟨r, hr⟩
    exact ⟨_, (transaction_of_illegal hr s).trans (execIllegal_of_unlocked hf), rfl⟩
  · obtain ⟨hwf, -⟩ := encodeOfDecodeIsTheWord cw i hi
    have hexec := transaction_of_decoded hi s
    refine ⟨fun hneed hk => ⟨_, hexec.trans (exec_nokey hf hk hwf hneed), rfl⟩,
      fun hshort hk => ⟨_, hexec.trans (exec_shortblk hf hk hwf hshort), rfl⟩, fun hkey hshort => ?_⟩
    have hk : NeedsKey i → s.kv = true := fun hneed => Bool.eq_true_of_not_eq_false fun h => hkey ⟨hneed, h⟩
    rw [hexec]
    exact exec_ok hf hwf hk hshort

/-! ### The answer of a locked core (R144) -/

/-- Line 2 of R145 stands before everything else a command does, but for `CLR`. -/
theorem exec_of_locked {i : Instr} {s : State} (hf : s.flt ≠ 0) (hclr : i ≠ .clr) : exec i s = .next (answerLocked s) := by
  cases i with
  | clr => exact absurd rfl hclr
  | rdsk index =>
    simp only [exec, execRdsk]
    split
    · exact runChecked_locked hf _ _ _ _
    · exact execIllegal_of_locked hf
  | nop | keyld key | enc data len | dec data len | sub data | isub data | prm data | iprm data =>
    exact runChecked_locked hf _ _ _ _

theorem transaction_of_locked {cw : CmdWord} {s : State} (hf : s.flt ≠ 0) (hclr : decode cw ≠ .ok .clr) :
    transaction cw s = .next (answerLocked s) := by
  cases h : decode cw with
  | ok i =>
    rw [transaction_of_decoded h]
    exact exec_of_locked hf fun hi => hclr (h.trans (congrArg _ hi))
  | error r =>
    rw [transaction_of_illegal h]
    exact execIllegal_of_locked hf

/-- Settles O12: the answer is `answerLocked s`. -/
theorem lockedCoreIgnoresOtherWords : Obligations.LockedCoreIgnoresOtherWords :=
  ⟨fun _ _ hf hclr => ⟨_, transaction_of_locked hf hclr, rfl⟩, by decide⟩

/-! ### The lock holds (R147, R149) -/

theorem engineRunning_of_locked {s : State} (hf : s.flt ≠ 0) : engineRunning s = false :=
  Bool.eq_false_iff.mpr fun hrun => hf (engineRunning_unlocked hrun)

/-- Accepting a word on a locked core does not start the engine (43_block_cipher.md R123). -/
theorem acceptWord_sameEngine_of_locked {s : State} (hf : s.flt ≠ 0) (cw : CmdWord) : SameEngine s (acceptWord cw s) := by
  rw [acceptWord_of_not_running (engineRunning_of_locked (s := beginCommand cw s) hf)]
  exact ⟨rfl, rfl, rfl⟩

/-- The engine of a locked core takes no round step. -/
theorem waitEdge_sameEngine_of_locked {s : State} (hf : s.flt ≠ 0) : SameEngine s (waitEdge s) := by
  simp [SameEngine, waitEdge, engineRunning_of_locked hf]

theorem answerLocked_same (s : State) : SameVisible s (answerLocked s) ∧ SameEngine s (answerLocked s) :=
  ⟨.refl s, rfl, rfl, rfl⟩

/-- No clock edge changes what a locked core holds, unless a `CLR` is in progress. -/
theorem clockEdge_of_locked {valid : Bool} {cw : CmdWord} {s t : State} (hf : s.flt ≠ 0)
    (hclr : s.busy = true → decode s.accepted ≠ .ok .clr) (h : clockEdge valid cw s = .next t) :
    SameVisible s t ∧ SameEngine s t := by
  have hf' : (nextCycle s).flt ≠ 0 := hf
  rcases clockEdge_cases h with ⟨_, _, hrun, _⟩ | ⟨hb, _, _, ht⟩ | ⟨_, _, rfl⟩ | ⟨_, _, rfl⟩ | ⟨_, _, rfl⟩
  · exact absurd (engineRunning_unlocked hrun) hf
  · obtain rfl := Host.Outcome.next.inj ((transaction_of_locked hf' (hclr hb)).symm.trans ht)
    exact answerLocked_same s
  · exact ⟨waitEdge_sameVisible _, waitEdge_sameEngine_of_locked hf'⟩
  · exact ⟨acceptWord_sameVisible cw _, acceptWord_sameEngine_of_locked hf' cw⟩
  · exact ⟨.refl s, rfl, rfl, rfl⟩

/-- Settles O13, by the host's next event: a clock edge, or a word an idle core answers LOCKED. -/
theorem lockHoldsUntilClearOrReset : Obligations.LockHoldsUntilClearOrReset := by
  intro s t hf hreset hbusy hidle h
  rcases step_cases h with ⟨_, he⟩ | ⟨_, _, _, _, he⟩ | ⟨cw, rest, hh, hb, ht⟩ | ⟨_, _, rest, _, he⟩ | ⟨rest, hh, _⟩
  · exact clockEdge_of_locked hf hbusy he
  · exact clockEdge_of_locked hf hbusy he
  · have hans := transaction_of_locked (s := { s with host := rest }) hf (hidle hb cw rest hh)
    obtain rfl := Host.Outcome.next.inj (hans.symm.trans ht)
    exact answerLocked_same s
  · exact clockEdge_of_locked (s := { s with host := rest }) hf hbusy he
  · exact absurd hh (hreset rest)

end Sys2Proof.Machine
end

section
/-! PROOFS. Reset and hazards (70_reset_and_hazards.md): every step gives a next state (R178), a reset edge zeroes the core
(R165, R166), and an idle core to which nothing is presented waits as it is (R168, 60_exceptions.md R159). -/

namespace Sys2Proof.Machine

/-! ### Every step gives a next state -/

/-- A reset event is one edge with `rst = 1`, whatever the core is doing (R165). -/
theorem step_reset {s : State} {rest : List HostEvent} (hh : s.host = .reset :: rest) :
    step s = .next (resetCore { s with host := rest }) := by
  simp [step, runHost, hh]

/-- Settles O7, by the host's next event: a clock edge, a word executed whole, or a reset edge. -/
theorem stepNeverStops : Obligations.StepNeverStops := by
  intro s
  cases hh : s.host with
  | nil =>
    rw [step_of_no_event hh]
    exact clockEdge_next _ _ _
  | cons event rest =>
    cases event with
    | command cw =>
      cases hb : s.busy with
      | true =>
        rw [step_command_of_busy hh hb]
        exact clockEdge_next _ _ _
      | false =>
        rw [step_command_of_idle hh hb]
        exact transaction_next _ _
    | edge valid cw =>
      rw [step_edge hh]
      exact clockEdge_next _ _ _
    | reset => exact ⟨_, step_reset hh⟩

/-! ### A reset edge -/

/-- With `rst = 1` the port neither accepts nor responds (20_memory.md R30, R165). -/
theorem portOutputs_closed (s : State) : (portOutputs true s).cmdReady = false ∧ (portOutputs true s).rspValid = false := by
  simp [portOutputs, cmdReady, rspValid]

/-- Settles O9: what the edge leaves is `resetCore`, with no condition on the state. -/
theorem resetFromAnyState : Obligations.ResetFromAnyState :=
  ⟨fun _ _ hh => ⟨_, step_reset hh, coreIsReset_resetCore _, resetCore_rsp _⟩, portOutputs_closed⟩

/-! ### The core waits -/

/-- What the ports show of zero elements with `rst = 0` (R168). -/
theorem CoreIsReset.ports {s : State} (h : CoreIsReset s) : (portOutputs false s).cmdReady = true ∧
    (portOutputs false s).status = 0 ∧ (portOutputs false s).dout = 0 := by
  obtain ⟨-, -, -, hkv, hdout, hdv, hflt, -, -, -, hbusy⟩ := h
  have hstatus : statusPort s = 0 := by
    rw [statusPort, hflt, hdv, hkv, hbusy]
    rfl
  exact ⟨(cmdReady_iff false s).mpr ⟨hbusy, rfl⟩, hstatus, hdout⟩

/-- The visible elements, the engine's registers and `BUSY` are all the elements of 10_state.md R10. -/
theorem CoreIsReset.of_same {s t : State} (h : CoreIsReset s) (hv : SameVisible s t) (he : SameEngine s t)
    (hb : t.busy = s.busy) : CoreIsReset t := by
  obtain ⟨h0, h1, h2, hkv, hdout, hdv, hflt⟩ := hv
  obtain ⟨hw, hrnd, hdir⟩ := he
  rw [CoreIsReset, h0, h1, h2, hkv, hdout, hdv, hflt, hw, hrnd, hdir, hb]
  exact h

/-- The host presents nothing at its next step: it has no event left, or drives `cmd_valid = 0`. -/
def PresentsNothing (s : State) : Prop := s.host = [] ∨ ∃ cw rest, s.host = .edge false cw :: rest

/-- At an edge with `cmd_valid = 0` an idle core does nothing (20_memory.md R31). -/
theorem clockEdge_of_idle_unpresented {s : State} (hb : s.busy = false) (cw : CmdWord) :
    clockEdge false cw s = .next (nextCycle s) := by
  simp [clockEdge, hb, nextCycle]

/-- A step in which nothing is presented to an idle core only passes the clock cycle, and the host's event if there is one. -/
theorem step_of_idle_unpresented {s : State} (hb : s.busy = false) (hn : PresentsNothing s) :
    step s = .next (nextCycle { s with host := s.host.tail }) := by
  rcases hn with hh | ⟨cw, rest, hh⟩
  · have htail : s.host.tail = s.host := by rw [hh, List.tail_nil]
    rw [step_of_no_event hh, clockEdge_of_idle_unpresented hb, htail]
  · rw [step_edge hh, clockEdge_of_idle_unpresented (s := { s with host := rest }) hb, hh, List.tail_cons]

/-- Settles O10: the one step of an idle core that writes no element. -/
theorem resetCoreWaits : Obligations.ResetCoreWaits := by
  refine ⟨fun _ h => h.ports, fun s hb hn => ⟨_, step_of_idle_unpresented hb hn, ?_⟩⟩
  have hsame : SameVisible s (nextCycle { s with host := s.host.tail }) := .refl s
  have hengine : SameEngine s (nextCycle { s with host := s.host.tail }) := ⟨rfl, rfl, rfl⟩
  exact ⟨hsame, hengine, hb, rfl, rfl, fun h => h.of_same hsame hengine rfl⟩

end Sys2Proof.Machine
end

section
/-! PROOFS. The spec's vectors under its example tables `T_AFF` (95_test_vectors.md sections 3.4 to 3.6). Forward values are
computed, one unit or one round at a time; each inverse value is the forward value read backwards, as section 3.5 puts it. -/

namespace Sys2Proof.Machine

theorem tAff_wf : Tables.tAff.wf = true := by decide

/-- The working word after each of the three rounds gives the ciphertext (43_block_cipher.md R115). -/
theorem encryptWord_of_rounds {t : Tables} {sk : Fin 3 → Word} {p w₀ w₁ c : Word} (h₀ : roundFwd t p (sk 0) = w₀)
    (h₁ : roundFwd t w₀ (sk 1) = w₁) (h₂ : roundFwd t w₁ (sk 2) = c) : encryptWord t sk p = c := by
  subst h₀ h₁ h₂
  rfl

/-- Section 3.6: key `0x12345678`, with the words of the trace. -/
theorem encryptWord_tAff_zero : encryptWord Tables.tAff (generateSubkeys 0x12345678) 0x00000000 = 0xFD0721C1 :=
  encryptWord_of_rounds (w₀ := 0x2B67A3FF) (w₁ := 0x58230D97) (by decide) (by decide) (by decide)

/-- Section 3.6 gives only the decrypted word of this key; the words between the rounds are the model's. -/
theorem encryptWord_tAff_eq_allOnes :
    encryptWord Tables.tAff (generateSubkeys 0xDEADBEEF) 0xB35A2584 = 0xFFFFFFFF :=
  encryptWord_of_rounds (w₀ := 0x9D26DC25) (w₁ := 0xE89F469F) (by decide) (by decide) (by decide)

/-- Settles O37: forward by computation, backwards by the laws that an inverse unit, round or block undoes the forward one
(40_sbox_perm_units.md R81, 42_round_function.md R107, 43_block_cipher.md R118). -/
theorem affineTableVectors : Obligations.AffineTableVectors := by
  have hsub : substitute Tables.tAff 0x4B2907E5 = 0x12345678 := by decide
  have hperm : permute Tables.tAff 0x6C20E4A9 = 0x12345678 := by decide
  have hround : roundFwd Tables.tAff 0xDEADBEEF 0x18FED87A = 0x001BE1C9 := by decide
  refine ⟨by decide, ?_, by decide, ?_, hround, ?_, encryptWord_tAff_zero, ?_⟩
  · rw [← hsub, substituteInverse_substitute tAff_wf]
  · rw [← hperm, permuteInverse_permute tAff_wf]
  · rw [← hround, roundInv_roundFwd tAff_wf]
  · rw [← encryptWord_tAff_eq_allOnes, decryptWord_encryptWord tAff_wf]

end Sys2Proof.Machine
end
